-- ==== Sys2Proof/Word.lean ====
section
/-! DEFINITION. The plain word types of SFE-CTR128: bytes, the 16-byte values of the cipher, the 128-bit header
and completion words, and the 64-bit operand and value words (00_scope.md rules R10 and R12). Nothing here computes. -/

namespace Sys2Proof

/-- A byte is 8 bits (00_scope.md rule R12). -/
abbrev Byte := BitVec 8

/-- A 16-byte value, byte 0 first (00_scope.md rule R12; `BLOCK_BYTES` and `KEY_BYTES` of rule R10). -/
abbrev Bytes16 := Vector Byte 16

/-- A four-byte word of the key schedule (40_aes128.md rule R106). -/
abbrev KeyWord := Vector Byte 4

/-- The eleven round keys `rk[0..10]` (10_state.md rule R25; `NR` = 10 of 00_scope.md rule R10). -/
abbrev RoundKeys := Vector Bytes16 11

/-- A 128-bit command header word (30_encoding.md rule R80). -/
abbrev Header := BitVec 128

/-- A 128-bit completion word (30_encoding.md rule R88). -/
abbrev CplWord := BitVec 128

/-- A 64-bit pass-through operand or value (`VALUE_BITS` of 00_scope.md rule R10). -/
abbrev Word64 := BitVec 64

end Sys2Proof
end

