-- ==== Sys2Proof/Machine/Bytes.lean ====
section
/-! DEFINITION. Byte sequences and big-endian numbers (00_scope.md rule R12). -/

namespace Sys2Proof.Machine

/-- `BE(b)`: the number whose big-endian encoding is the byte sequence (00_scope.md rule R12). -/
def be : List Byte → Nat
  | [] => 0
  | x :: xs => x.toNat * 256 ^ xs.length + be xs

/-- `BE(b)` of a 16-byte value (00_scope.md rule R12). -/
def be16 (b : Bytes16) : Nat := be b.toList

/-- `BE_16(v)`: the 16-byte big-endian encoding of `v mod 2^128` (00_scope.md rule R12). -/
def ofBE16 (v : Nat) : Bytes16 := Vector.ofFn fun i => BitVec.ofNat 8 (v / 256 ^ (15 - i.val))

/-- `a ⊕ b`, byte by byte (00_scope.md rule R12). -/
def xor16 (a b : Bytes16) : Bytes16 := Vector.ofFn fun i => a[i] ^^^ b[i]

/-- Byte `j` of a list of bytes; used only where the list has one. -/
def byteAt (b : List Byte) (j : Nat) : Byte := b.getD j 0

/-- The first 16 bytes of a list. -/
def first16 (b : List Byte) : Bytes16 := Vector.ofFn fun i => byteAt b i.val

end Sys2Proof.Machine
end

