-- ==== Sys2Proof/Machine/Aes.lean ====
section
/-! DEFINITION. The AES-128 forward cipher and its key expansion (40_aes128.md rules R100 to R110), and the counter
increment (41_keystream_engine.md rule R126). A state is its 16 bytes in the order of rule R101: `s[r][c]` is byte
`r + 4c`. -/

namespace Sys2Proof.Machine

/-- `xtime(b)` (40_aes128.md rule R102). -/
def xtime (b : Byte) : Byte := (b <<< 1) ^^^ (if b.getLsbD 7 then 0x1b else 0)

/-- `a • b`: the sum of `xtime^i(a)` over the bits `i` set in `b`, here for the bits of `b` from `i` up, `n` of them
(40_aes128.md rule R102). -/
def gmulFrom (b : Byte) : Nat → Nat → Byte → Byte
  | 0, _, _ => 0
  | n + 1, i, a => (if b.getLsbD i then a else 0) ^^^ gmulFrom b n (i + 1) (xtime a)

/-- `a • b` in GF(2^8) (40_aes128.md rule R102). -/
def gmul (a b : Byte) : Byte := gmulFrom b 8 0 a

/-- The S-box table, one row for each high nibble, the value for low nibble 0 leftmost (40_aes128.md rule R103). -/
def sboxRows : List (BitVec 128) :=
  [0x637c777bf26b6fc53001672bfed7ab76, 0xca82c97dfa5947f0add4a2af9ca472c0,
   0xb7fd9326363ff7cc34a5e5f171d83115, 0x04c723c31896059a071280e2eb27b275,
   0x09832c1a1b6e5aa0523bd6b329e32f84, 0x53d100ed20fcb15b6acbbe394a4c58cf,
   0xd0efaafb434d338545f9027f503c9fa8, 0x51a3408f929d38f5bcb6da2110fff3d2] ++
  [0xcd0c13ec5f974417c4a77e3d645d1973, 0x60814fdc222a908846eeb814de5e0bdb,
   0xe0323a0a4906245cc2d3ac629195e479, 0xe7c8376d8dd54ea96c56f4ea657aae08,
   0xba78252e1ca6b4c6e8dd741f4bbd8b8a, 0x703eb5664803f60e613557b986c11d9e,
   0xe1f8981169d98e949b1e87e9ce5528df, 0x8ca1890dbfe6426841992d0fb054bb16]

/-- `S(b)` (40_aes128.md rule R103): row = high nibble, column = low nibble. -/
def sbox (b : Byte) : Byte :=
  (sboxRows.getD (b.toNat / 16) 0).extractLsb' (8 * (15 - b.toNat % 16)) 8

/-- `SubBytes(s)` (40_aes128.md rule R104). -/
def subBytes (s : Bytes16) : Bytes16 := Vector.ofFn fun i => sbox s[i]

/-- `s[r][c]`, byte `r + 4c` (40_aes128.md rule R101); used only with `r` and `c` in 0 to 3. -/
def cell (s : Bytes16) (r c : Nat) : Byte := byteAt s.toList (r + 4 * c)

/-- The state with `f r c` in row `r` and column `c` (40_aes128.md rule R101). -/
def ofCells (f : Nat → Nat → Byte) : Bytes16 := Vector.ofFn fun i => f (i.val % 4) (i.val / 4)

/-- `ShiftRows(s)`: `s'[r][c] = s[r][(c + r) mod 4]` (40_aes128.md rule R105). -/
def shiftRows (s : Bytes16) : Bytes16 := ofCells fun r c => cell s r ((c + r) % 4)

/-- `MixColumns(s)` (40_aes128.md rule R108): each of the rule's four lines has 0x02 on its own row, 0x03 on the next
row and 0x01 on the other two. -/
def mixColumns (s : Bytes16) : Bytes16 := ofCells fun r c =>
  gmul 0x02 (cell s r c) ^^^ gmul 0x03 (cell s ((r + 1) % 4) c) ^^^ cell s ((r + 2) % 4) c ^^^
    cell s ((r + 3) % 4) c

/-- `AddRoundKey(s, k)` (40_aes128.md rule R109). -/
def addRoundKey (s k : Bytes16) : Bytes16 := xor16 s k

/-- `Rcon[j]` for `j` in 1 to 10 (40_aes128.md rule R107). -/
def rcon (j : Nat) : Byte :=
  [0x01, 0x02, 0x04, 0x08, 0x10, 0x20, 0x40, 0x80, 0x1b, 0x36].getD (j - 1) 0

/-- `RotWord` (40_aes128.md rule R106). -/
def rotWord (w : KeyWord) : KeyWord := Vector.ofFn fun i => byteAt w.toList ((i.val + 1) % 4)

/-- `SubWord` (40_aes128.md rule R106). -/
def subWord (w : KeyWord) : KeyWord := Vector.ofFn fun i => sbox w[i]

/-- `a ⊕ b` of two key words (40_aes128.md rule R106). -/
def xorWord (a b : KeyWord) : KeyWord := Vector.ofFn fun i => a[i] ^^^ b[i]

/-- `(Rcon[j], 0x00, 0x00, 0x00)` (40_aes128.md rule R106). -/
def rconWord (j : Nat) : KeyWord := Vector.ofFn fun i => if i.val = 0 then rcon j else 0

/-- Word `w[i]` of a list of key words; used only where the list has one. -/
def wordAt (w : List KeyWord) (i : Nat) : KeyWord := w.getD i (Vector.replicate 4 0)

/-- `w[i]` for `i ≥ 4` from the words before it, `i` being their number (40_aes128.md rule R106). -/
def nextWord (w : List KeyWord) : KeyWord :=
  xorWord (wordAt w (w.length - 4))
    (if w.length % 4 = 0 then
      xorWord (subWord (rotWord (wordAt w (w.length - 1)))) (rconWord (w.length / 4))
    else wordAt w (w.length - 1))

/-- The first `4 + n` words of the key schedule (40_aes128.md rule R106). -/
def keyWords (k : Bytes16) : Nat → List KeyWord
  | 0 => (List.range 4).map fun i => Vector.ofFn fun j => byteAt k.toList (4 * i + j.val)
  | n + 1 => keyWords k n ++ [nextWord (keyWords k n)]

/-- `KeyExpansion(k)`: `rk[r][4c + j]` is byte `j` of `w[4r + c]` (40_aes128.md rule R106). -/
def keyExpansion (k : Bytes16) : RoundKeys :=
  Vector.ofFn fun r => ofCells fun j c => byteAt (wordAt (keyWords k 40) (4 * r.val + c)).toList j

/-- Round key `rk[r]` (40_aes128.md rule R106); used only with `r` in 0 to 10. -/
def roundKey (rk : RoundKeys) (r : Nat) : Bytes16 := rk.toList.getD r (Vector.replicate 16 0)

/-- The state after round `n` of rounds 1 to 9 (40_aes128.md rule R110). -/
def aesRounds (rk : RoundKeys) (x : Bytes16) : Nat → Bytes16
  | 0 => addRoundKey x (roundKey rk 0)
  | n + 1 => addRoundKey (mixColumns (shiftRows (subBytes (aesRounds rk x n)))) (roundKey rk (n + 1))

/-- `AES128(rk, x)`; the last round has no MixColumns (40_aes128.md rule R110). -/
def aes128 (rk : RoundKeys) (x : Bytes16) : Bytes16 :=
  addRoundKey (shiftRows (subBytes (aesRounds rk x 9))) (roundKey rk 10)

/-- `inc(c)`: the low `m` bits of the big-endian counter plus one with wrap, the upper bits unchanged
(41_keystream_engine.md rule R126). -/
def inc (m : Nat) (c : Bytes16) : Bytes16 :=
  ofBE16 ((be16 c - be16 c % 2 ^ m) + (be16 c + 1) % 2 ^ m)

end Sys2Proof.Machine
end

