-- ==== Sys2Proof/Syntax.lean ====
section
/-! DEFINITION. The eleven commands of the opcode map (30_encoding.md rule R84), one constructor for each row of
spec/opcode_table.json. A constructor holds every bit of the command that the row does not fix: the operand fields of
rule R83, the payload bytes of rule R81, and for WRITE, SEEK and POSSET the fields that are "don't care". -/

namespace Sys2Proof

inductive Instr where
  /-- LDKEY: load a raw key; the payload is the key candidate (41_keystream_engine.md rule R123). -/
  | ldkey (pay : List Byte)
  /-- LDKEYHEX: load a key given as ASCII hex characters (41_keystream_engine.md rule R124). -/
  | ldkeyhex (pay : List Byte)
  /-- READ: decrypt at least `count` bytes, in whole blocks (42_reader.md rule R141). -/
  | read (count : BitVec 48)
  /-- CLOSE: close the upstream source (43_control_commands.md rule R161). -/
  | close
  /-- WRITE: rejected; every field is "don't care" (43_control_commands.md rule R166). -/
  | write (x : BitVec 8) (rsv : BitVec 32) (arg : BitVec 64) (pay : List Byte)
  /-- SEEK: rejected; `arg` is the offset and `x` the origin, both ignored (43_control_commands.md rule R167). -/
  | seek (x : BitVec 8) (rsv : BitVec 32) (arg : BitVec 64) (pay : List Byte)
  /-- POSSET: rejected; `arg` is the position, ignored (43_control_commands.md rule R168). -/
  | posset (x : BitVec 8) (rsv : BitVec 32) (arg : BitVec 64) (pay : List Byte)
  /-- LENGTH: the source's length (43_control_commands.md rule R162). -/
  | length
  /-- POSGET: the source's position (43_control_commands.md rule R163). -/
  | posget
  /-- FLUSH: flush the source (43_control_commands.md rule R164). -/
  | flush
  /-- SETLEN: set the source's length to `value`, verbatim (43_control_commands.md rule R165). -/
  | setlen (value : BitVec 64)
deriving DecidableEq, Repr

/-- The payload bytes `pay[0..p-1]` that follow the command's header on PAY (30_encoding.md rule R81). -/
def Instr.payload : Instr → List Byte
  | .ldkey pay => pay
  | .ldkeyhex pay => pay
  | .read _ => []
  | .close => []
  | .write _ _ _ pay => pay
  | .seek _ _ _ pay => pay
  | .posset _ _ _ pay => pay
  | .length => []
  | .posget => []
  | .flush => []
  | .setlen _ => []

end Sys2Proof
end

