-- ==== Sys2Proof/WellFormed.lean ====
section
/-! DEFINITION. What makes a command one that a header can announce: its payload length fits the 16-bit field PLEN
(30_encoding.md rule R82, `0 ≤ PLEN ≤ 65535`). Every other field has its width in its type. -/

namespace Sys2Proof

/-- The payload fits the 16-bit `PLEN` field (30_encoding.md rules R80 and R82). -/
abbrev Instr.WellFormed (i : Instr) : Prop := i.payload.length < 65536

end Sys2Proof
end

