-- ==== Sys2Proof/Decode.lean ====
section
/-! DEFINITION. The command header (30_encoding.md rule R80), the decoder (rules R83 to R87) and, after it, the encoder
written from the same table. The decoder is total on any header and any payload and rejects by name. -/

namespace Sys2Proof

/-- `OP`, `h[127:120]` (30_encoding.md rule R80). -/
def hdrOp (h : Header) : BitVec 8 := h.extractLsb' 120 8

/-- `X`, `h[119:112]` (30_encoding.md rule R80). -/
def hdrX (h : Header) : BitVec 8 := h.extractLsb' 112 8

/-- `PLEN`, `h[111:96]` (30_encoding.md rule R80). -/
def hdrPlen (h : Header) : BitVec 16 := h.extractLsb' 96 16

/-- `RSV`, `h[95:64]` (30_encoding.md rule R80). -/
def hdrRsv (h : Header) : BitVec 32 := h.extractLsb' 64 32

/-- `ARG`, `h[63:0]` (30_encoding.md rule R80). -/
def hdrArg (h : Header) : BitVec 64 := h.extractLsb' 0 64

/-- Why a header is illegal (30_encoding.md rule R86). -/
inductive DecodeError where
  /-- `OP` is not in the opcode map of rule R84. -/
  | unassignedOp (op : BitVec 8)
  /-- `OP` is in the map and one of its row's fixed fields does not hold. -/
  | fixedField (op : BitVec 8)
deriving DecidableEq, Repr

/-- The row's command when its fixed fields hold, an illegal header otherwise (30_encoding.md rules R85 and R86). -/
def checkFixed (h : Header) (holds : Bool) (i : Instr) : Except DecodeError Instr :=
  if holds then .ok i else .error (.fixedField (hdrOp h))

/-- "X = 0, RSV = 0, ARG = 0": the fixed fields of LDKEY and LDKEYHEX (30_encoding.md rule R84). -/
def fixedKeyLoad (h : Header) : Bool := hdrX h == 0 && hdrRsv h == 0 && hdrArg h == 0

/-- "X = 0, PLEN = 0, RSV = 0": the fixed fields of SETLEN, and with `ARG` those of READ and of the commands that
have no operand (30_encoding.md rule R84). -/
def fixedNoPayload (h : Header) : Bool := hdrX h == 0 && hdrPlen h == 0 && hdrRsv h == 0

/-- `ARG[63:48] = 0`, the extra fixed field of READ (30_encoding.md rules R83 and R84). -/
def fixedReadArg (h : Header) : Bool := (hdrArg h).extractLsb' 48 16 == 0

/-- The decoder (30_encoding.md rules R83 to R87): `OP` first, then the row's fixed fields. `pay` holds the `PLEN`
payload bytes that rule R81 frames; rows whose `PLEN` is fixed to 0 have none. -/
def decode (h : Header) (pay : List Byte) : Except DecodeError Instr :=
  if hdrOp h = 0x01#8 then checkFixed h (fixedKeyLoad h) (.ldkey pay)
  else if hdrOp h = 0x02#8 then checkFixed h (fixedKeyLoad h) (.ldkeyhex pay)
  else if hdrOp h = 0x10#8 then
    checkFixed h (fixedNoPayload h && fixedReadArg h) (.read ((hdrArg h).extractLsb' 0 48))
  else if hdrOp h = 0x11#8 then checkFixed h (fixedNoPayload h && hdrArg h == 0) .close
  else if hdrOp h = 0x20#8 then .ok (.write (hdrX h) (hdrRsv h) (hdrArg h) pay)
  else if hdrOp h = 0x21#8 then .ok (.seek (hdrX h) (hdrRsv h) (hdrArg h) pay)
  else if hdrOp h = 0x22#8 then .ok (.posset (hdrX h) (hdrRsv h) (hdrArg h) pay)
  else if hdrOp h = 0x30#8 then checkFixed h (fixedNoPayload h && hdrArg h == 0) .length
  else if hdrOp h = 0x31#8 then checkFixed h (fixedNoPayload h && hdrArg h == 0) .posget
  else if hdrOp h = 0x32#8 then checkFixed h (fixedNoPayload h && hdrArg h == 0) .flush
  else if hdrOp h = 0x33#8 then checkFixed h (fixedNoPayload h) (.setlen (hdrArg h))
  else .error (.unassignedOp (hdrOp h))

/-- A header from its fields, most significant first (30_encoding.md rule R80). -/
def mkHeader (op x : BitVec 8) (plen : BitVec 16) (rsv : BitVec 32) (arg : BitVec 64) : Header :=
  op ++ x ++ plen ++ rsv ++ arg

/-- The payload length of a command as the field `PLEN` (30_encoding.md rules R80 and R81). -/
def plenField (pay : List Byte) : BitVec 16 := BitVec.ofNat 16 pay.length

/-- The `OP` column of the opcode map (30_encoding.md rule R84). -/
def opcode : Instr → BitVec 8
  | .ldkey _ => 0x01
  | .ldkeyhex _ => 0x02
  | .read _ => 0x10
  | .close => 0x11
  | .write _ _ _ _ => 0x20
  | .seek _ _ _ _ => 0x21
  | .posset _ _ _ _ => 0x22
  | .length => 0x30
  | .posget => 0x31
  | .flush => 0x32
  | .setlen _ => 0x33

/-- The header of a command (30_encoding.md rules R83 and R84). -/
def encodeHeader : Instr → Header
  | .ldkey pay => mkHeader 0x01 0 (plenField pay) 0 0
  | .ldkeyhex pay => mkHeader 0x02 0 (plenField pay) 0 0
  | .read count => mkHeader 0x10 0 0 0 (count.setWidth 64)
  | .close => mkHeader 0x11 0 0 0 0
  | .write x rsv arg pay => mkHeader 0x20 x (plenField pay) rsv arg
  | .seek x rsv arg pay => mkHeader 0x21 x (plenField pay) rsv arg
  | .posset x rsv arg pay => mkHeader 0x22 x (plenField pay) rsv arg
  | .length => mkHeader 0x30 0 0 0 0
  | .posget => mkHeader 0x31 0 0 0 0
  | .flush => mkHeader 0x32 0 0 0 0
  | .setlen value => mkHeader 0x33 0 0 0 value

/-- The words of a command: its header on CMD and its payload on PAY (30_encoding.md rules R80 and R81). -/
def encode (i : Instr) : Header × List Byte := (encodeHeader i, i.payload)

/-- The length of a command in bytes, `16 + PLEN`, told from the header alone (30_encoding.md rule R82). -/
def commandBytes (h : Header) : Nat := 16 + (hdrPlen h).toNat

/-- The header of a command whose bits are `w`: the first word, bits 127 to 0. -/
def tableHeader (nbits w : Nat) : Header := BitVec.ofNat 128 (w % 2 ^ nbits)

/-- The payload of a command whose bits are `w`: `PLEN` bytes after the header, the first at bits 135 to 128; a bit
above `nbits` is 0. DESIGN CHOICE, safe (notes/assumptions/11.md). -/
def tablePayload (nbits w : Nat) : List Byte :=
  (List.range (hdrPlen (tableHeader nbits w)).toNat).map
    fun j => BitVec.ofNat 8 ((w % 2 ^ nbits) >>> (128 + 8 * j))

/-- The command the decoder reads from the bits `w` of a row of spec/opcode_table.json. -/
def decodeTableWord (nbits w : Nat) : Option Instr :=
  match decode (tableHeader nbits w) (tablePayload nbits w) with
  | .ok i => some i
  | .error _ => none

end Sys2Proof
end

