-- ==== Sys2Proof/Config.lean ====
section
/-! DEFINITION. The two open parameters of the block (00_scope.md rule R10): the counter increment width
`CTR_INC_BITS` and the type `SrcErr` of the upstream source's error values. -/

namespace Sys2Proof

/-- `CTR_INC_BITS` (00_scope.md rule R10, 92_eei_decisions.md D6): any width from 32 to 128. The machine holds the
width it was built with in `State.ctrIncBits`, so a claim about every state is a claim about every admissible width. -/
abbrev CtrIncBits := { m : Nat // 32 ≤ m ∧ m ≤ 128 }

/-- The default width, 128 (00_scope.md rule R10). -/
def ctrIncBitsDefault : CtrIncBits := ⟨128, by decide⟩

/-- `SrcErr` (00_scope.md rule R10, 92_eei_decisions.md D32 "a model chooses it (for example a natural number or an
enumeration)"). DESIGN CHOICE, safe (notes/assumptions/2.md): a natural number names any error value of a countable type;
the block only carries it. -/
abbrev SrcErr := Nat

end Sys2Proof
end

