-- ==== Sys2Proof/Machine/State.lean ====
section
/-! DEFINITION. The state of SFE-CTR128 as plain data: the record `st` of 10_state.md rule R20, field by field; the
ports of 20_memory.md rule R51 as the host and the source see them; the width `CTR_INC_BITS` the block was built with;
the reasons a step can stop; and the state right after reset (70_reset_and_hazards.md rule R200). -/

namespace Sys2Proof.Machine

/-- The sequencer states (10_state.md rules R20 and R30). -/
inductive Fsm where
  | idle
  | filling
  | decrypting
  | appending
  | ctlWait
deriving DecidableEq, Repr

/-- The upstream control operations (20_memory.md rule R56). -/
inductive CtlOp where
  | close
  | length
  | position
  | flush
  | setLength
deriving DecidableEq, Repr

/-- A response to an upstream read request (20_memory.md rule R53). -/
inductive ReadResp where
  /-- `DATA(b)`: the next `len(b)` ciphertext bytes. -/
  | data (b : List Byte)
  /-- `END`: the source is exhausted. -/
  | endOfStream
  /-- `NOT_READABLE`: treated exactly as `END` (42_reader.md rule R147). -/
  | notReadable
  /-- `ERROR(e)`: the source failed. -/
  | error (e : SrcErr)
deriving DecidableEq, Repr

/-- A response to an upstream control request (20_memory.md rule R56). -/
inductive CtlResp where
  /-- `CTL_OK(v)`. -/
  | ok (v : Word64)
  /-- `CTL_ERROR(e)`. -/
  | error (e : SrcErr)
deriving DecidableEq, Repr

/-- One port event (20_memory.md rules R51 to R58), or a reset (70_reset_and_hazards.md rule R202). -/
inductive Event where
  /-- CMD and PAY: a header and its payload are taken (30_encoding.md rule R81). -/
  | accept (h : Header) (pay : List Byte)
  /-- SRD: `SrcRead(n)` is sent (20_memory.md rule R53). -/
  | readReq (n : Nat)
  /-- SRD: a response is taken (20_memory.md rule R53). -/
  | readResp (r : ReadResp)
  /-- SCTL: `SrcCtl(op, arg)` is sent (20_memory.md rule R56). -/
  | ctlReq (op : CtlOp) (arg : Word64)
  /-- SCTL: a response is taken (20_memory.md rule R56). -/
  | ctlResp (r : CtlResp)
  /-- OUT: `Emit(x)` (20_memory.md rule R58). -/
  | out (x : Byte)
  /-- CPL: a completion word with its ERR sideband (30_encoding.md rule R88). -/
  | cpl (word : CplWord) (err : Option SrcErr)
  /-- The block is reset; no port event, a mark in the record (70_reset_and_hazards.md rule R203). -/
  | reset
deriving DecidableEq, Repr

/-- The record `st`, the block's whole state (10_state.md rule R20). -/
structure BlockState where
  /-- The sequencer (rule R30). -/
  fsm : Fsm
  /-- `key_valid`: a key has been loaded (rule R22). -/
  keyValid : Bool
  /-- The cipher key (rule R21). -/
  key : Bytes16
  /-- The cipher state has been initialised (rule R23). -/
  init : Bool
  /-- The round keys `rk[0..10]` (rule R25). -/
  rk : RoundKeys
  /-- The counter block, 16 bytes, byte 0 most significant (rule R24). -/
  ctr : Bytes16
  /-- End of stream has been seen (rule R27). -/
  eof : Bool
  /-- The block fill buffer `fbuf[0..15]` (rule R26). -/
  fbuf : Bytes16
  /-- The bytes held in `fbuf`, 0 to 16 (rule R26). -/
  fcnt : Nat
  /-- The current keystream block (rule R28). -/
  ks : Bytes16
  /-- The byte count of the current READ (rule R29). -/
  count : BitVec 48
  /-- The bytes the current READ has emitted (rule R29). -/
  produced : BitVec 64
  /-- The size of the outstanding upstream read request, 0 to 16, 0 if none (rule R31). -/
  req : Nat
  /-- The header of the command being executed (rule R32). -/
  cmd : Header
deriving DecidableEq, Repr

/-- The ports of 20_memory.md rule R51 as plain data: what the host and the source offer the block, and the record of
every transfer so far. These are the model's own fields: the inputs of rule R20, not state of the block. DESIGN CHOICE,
safe (notes/assumptions/7.md, 8.md and 9.md). -/
structure Ports where
  /-- Reset is asserted (70_reset_and_hazards.md rule R202). -/
  rst : Bool
  /-- The host or the source has not yet taken a transfer the block offered (20_memory.md rule R52). -/
  stalled : Bool
  /-- CMD: the headers the host offers, the next one first. -/
  cmd : List Header
  /-- PAY: the payload bytes the host offers, the next one first. -/
  pay : List Byte
  /-- SRD: the source's answers to read requests, the next one first: free draws (20_memory.md rule R54). -/
  srd : List ReadResp
  /-- SCTL: the source's answers to control requests, the next one first: free draws (20_memory.md rule R56). -/
  sctl : List CtlResp
  /-- Every transfer so far, oldest first. -/
  trace : List Event
deriving DecidableEq, Repr

/-- The machine: the block's record, the ports, and the parameter `CTR_INC_BITS` (00_scope.md rule R10), which no
step changes (DESIGN CHOICE, safe: notes/assumptions/3.md). -/
structure State where
  st : BlockState
  io : Ports
  ctrIncBits : CtrIncBits
deriving DecidableEq, Repr

/-- The machine has no fault: "There is no trap, no exception vector, no handler" (60_exceptions.md rule R180); every
error is a completion. No step raises one; that is safe. -/
inductive Fault where
deriving DecidableEq, Repr

/-- Why a step is refused. -/
inductive Refusal where
  /-- Raised by an arm of `exec` for an instruction that has no meaning yet; no arm does. Safe. -/
  | notModelled (mnemonic : String)
  /-- Raised by the step that takes an upstream read response outside the source contract ("cannot be expressed on
  `SRD`; a model gives the source no such move", 20_memory.md rule R54). Safe. -/
  | sourceOutsideContract
  /-- Raised by a move of the host or the source that the spec does not give it (30_encoding.md rule R81, 20_memory.md
  rule R57); the block's step never raises it. Safe. -/
  | noSuchMove
deriving DecidableEq, Repr

/-- Sixteen zero bytes. -/
def zero16 : Bytes16 := Vector.replicate 16 0

/-- The record after reset (70_reset_and_hazards.md rule R200). DESIGN CHOICE, unsafe: `key`, `rk`, `fbuf`, `ks` and
`cmd`, which the rule leaves unspecified, are all zeros (notes/assumptions/1.md). -/
def BlockState.reset : BlockState where
  fsm := .idle
  keyValid := false
  key := zero16
  init := false
  rk := Vector.replicate 11 zero16
  ctr := zero16
  eof := false
  fbuf := zero16
  fcnt := 0
  ks := zero16
  count := 0
  produced := 0
  req := 0
  cmd := 0

/-- The ports with nothing offered and nothing transferred. -/
def Ports.quiet : Ports where
  rst := false
  stalled := false
  cmd := []
  pay := []
  srd := []
  sctl := []
  trace := []

/-- The machine right after reset (70_reset_and_hazards.md rule R200), with the default `CTR_INC_BITS`. -/
def State.reset : State where
  st := BlockState.reset
  io := Ports.quiet
  ctrIncBits := ctrIncBitsDefault

end Sys2Proof.Machine
end

