-- ==== Sys2Proof/Machine/Flags.lean ====
section
/-! DEFINITION. The block has no condition codes (10_state.md rule R34): what a command reports is the status of its
completion word. The status codes (30_encoding.md rule R89) and the completion word (rule R88). -/

namespace Sys2Proof.Machine

/-- The seven statuses (30_encoding.md rule R89, 60_exceptions.md rule R181). -/
inductive Status where
  | ok
  | invalidKeyFormat
  | unsupportedOperation
  | sourceIoFailure
  | invalidKeyLength
  | noKey
  | illegalCommand
deriving DecidableEq, Repr

/-- The status codes (30_encoding.md rule R89). -/
def statusCode : Status → BitVec 8
  | .ok => 0x00
  | .invalidKeyFormat => 0x01
  | .unsupportedOperation => 0x02
  | .sourceIoFailure => 0x03
  | .invalidKeyLength => 0x04
  | .noKey => 0x05
  | .illegalCommand => 0x06

/-- The completion word: STATUS, OPE, 48 zero bits, VALUE, most significant first (30_encoding.md rule R88). -/
def completionWord (status : Status) (ope : BitVec 8) (value : Word64) : CplWord :=
  statusCode status ++ ope ++ (0 : BitVec 48) ++ value

/-- `STATUS`, `c[127:120]` (30_encoding.md rule R88). -/
def cplStatus (c : CplWord) : BitVec 8 := c.extractLsb' 120 8

/-- `OPE`, `c[119:112]` (30_encoding.md rule R88). -/
def cplOpe (c : CplWord) : BitVec 8 := c.extractLsb' 112 8

/-- `ZERO`, `c[111:64]` (30_encoding.md rule R88). -/
def cplZero (c : CplWord) : BitVec 48 := c.extractLsb' 64 48

/-- `VALUE`, `c[63:0]` (30_encoding.md rule R88). -/
def cplValue (c : CplWord) : Word64 := c.extractLsb' 0 64

end Sys2Proof.Machine
end

