-- ==== Sys2Proof/Machine/Operands.lean ====
section
/-! DEFINITION. The operands the key loads read (30_encoding.md rule R83): a raw key candidate, and a key given as a
hexadecimal string, decoded by `decodeKey` (41_keystream_engine.md rules R121 and R122). -/

namespace Sys2Proof.Machine

/-- `isHex(ch)`: the 22 ASCII codes of the hex digits (41_keystream_engine.md rule R122). -/
def isHex (ch : Byte) : Bool :=
  (0x30 ≤ ch.toNat && ch.toNat ≤ 0x39) || (0x41 ≤ ch.toNat && ch.toNat ≤ 0x46) ||
    (0x61 ≤ ch.toNat && ch.toNat ≤ 0x66)

/-- `hv(ch)`: the value of a hex digit (41_keystream_engine.md rule R122). -/
def hexValue (ch : Byte) : Byte :=
  if ch.toNat ≤ 0x39 then ch - 0x30 else if ch.toNat ≤ 0x46 then ch - 0x41 + 10 else ch - 0x61 + 10

/-- The bytes of consecutive two-character groups, the first character of a pair the high nibble
(41_keystream_engine.md rules R121 and R122). -/
def hexPairs : List Byte → List Byte
  | hi :: lo :: rest => (16 * hexValue hi + hexValue lo) :: hexPairs rest
  | _ => []

/-- `decodeKey(s)`, `none` for `FAIL` (41_keystream_engine.md rule R121). -/
def decodeKey (s : List Byte) : Option (List Byte) :=
  if s.length % 2 = 1 then none
  else if s.all isHex then some (hexPairs s)
  else none

/-- A key candidate as a key: exactly `KEY_BYTES` = 16 bytes, byte 0 first (00_scope.md rule R10, 20_memory.md rule
R63); `none` for any other length. -/
def keyOfBytes (b : List Byte) : Option Bytes16 :=
  if b.length = 16 then some (first16 b) else none

end Sys2Proof.Machine
end

