-- ==== Sys2Proof/Machine/Ops.lean ====
section
/-! DEFINITION. The named operations over the machine: port transfers, accepting a command, completing a command (the
block's only error entry and its return, one operation, 60_exceptions.md rules R180, R191 and R192), the keystream
engine's INIT and KSBLOCK, the reader's steps, and reset. The primitives are those of 00_scope.md rule R13. -/

namespace Sys2Proof.Machine

/-- Record port transfers, in order (20_memory.md rule R70). -/
def State.log (es : List Event) (s : State) : State :=
  { s with io := { s.io with trace := s.io.trace ++ es } }

/-- Move the sequencer (10_state.md rule R30). -/
def State.goto (fsm : Fsm) (s : State) : State := { s with st := { s.st with fsm := fsm } }

/-- `Complete(status, value, err)`: deliver the one completion word of the current command, echoing the `OP` of the
latched header, and return to `IDLE` (00_scope.md rule R13, 30_encoding.md rule R88, 60_exceptions.md rule R191). -/
def State.complete (status : Status) (value : Word64) (err : Option SrcErr) (s : State) : State :=
  (s.log [.cpl (completionWord status (hdrOp s.st.cmd) value) err]).goto .idle

/-- `raise S`: `Complete(S, 0, none)` and no other change (00_scope.md rule R13, 60_exceptions.md rule R180). -/
def State.raise (status : Status) (s : State) : State := s.complete status 0 none

/-- Take a header and its payload from CMD and PAY as one transfer, and latch the header in `cmd` (30_encoding.md
rule R81, 10_state.md rule R32). `h` is the header at the front of CMD. DEDUCED: every accepted header is
latched, an illegal one too, and the command's first effects are in the same step; safe but where a reset falls between
them (notes/assumptions/4.md). -/
def State.accept (h : Header) (s : State) : State :=
  let p := (hdrPlen h).toNat
  { s with
    st := { s.st with cmd := h }
    io := { s.io with
      cmd := s.io.cmd.tail
      pay := s.io.pay.drop p
      trace := s.io.trace ++ [.accept h (s.io.pay.take p)] } }

/-- Load the key (41_keystream_engine.md rules R123 and R124). -/
def State.loadKey (k : Bytes16) (s : State) : State :=
  { s with st := { s.st with key := k, keyValid := true } }

/-- INIT (41_keystream_engine.md rule R125): the round keys, the zero IV, the flag. -/
def State.initCipher (s : State) : State :=
  { s with st := { s.st with rk := keyExpansion s.st.key, ctr := ofBE16 0, init := true } }

/-- KSBLOCK (41_keystream_engine.md rule R127): the keystream block of the current counter, then the increment. -/
def State.ksBlock (s : State) : State :=
  { s with st := { s.st with ks := aes128 s.st.rk s.st.ctr, ctr := inc s.ctrIncBits.val s.st.ctr } }

/-- `st.count <- count; st.produced <- 0` (42_reader.md rule R142). -/
def State.startRead (count : BitVec 48) (s : State) : State :=
  { s with st := { s.st with count := count, produced := 0 } }

/-- `st.fcnt <- 0` (42_reader.md rules R143, R146 and R149). -/
def State.clearFill (s : State) : State := { s with st := { s.st with fcnt := 0 } }

/-- FETCH_START (42_reader.md rule R143): a fetch with `eof = 1` returns 0 bytes at once. -/
def State.fetchStart (s : State) : State :=
  if s.clearFill.st.eof then s.clearFill.complete .ok s.clearFill.st.produced none
  else s.clearFill.goto .filling

/-- `if st.init = 0: INIT` (42_reader.md rule R142). -/
def State.ensureInit (s : State) : State := if s.st.init then s else s.initCipher

/-- LOOP_TEST (42_reader.md rule R142): the test before every fetch, the first included. -/
def State.loopTest (s : State) : State :=
  if s.st.count.toNat ≤ s.st.produced.toNat then s.complete .ok s.st.produced none
  else s.ensureInit.fetchStart

/-- Issue `SrcRead(16 − fcnt)` (42_reader.md rule R144). -/
def State.issueRead (s : State) : State :=
  { s with
    st := { s.st with req := 16 - s.st.fcnt }
    io := { s.io with trace := s.io.trace ++ [.readReq (16 - s.st.fcnt)] } }

/-- The source contract for a read response to a request of `n` bytes: `DATA` holds at least 1 and at most `n` bytes
(20_memory.md rule R54). -/
def readContract (n : Nat) : ReadResp → Bool
  | .data b => 1 ≤ b.length && b.length ≤ n
  | .endOfStream => true
  | .notReadable => true
  | .error _ => true

/-- Take the next response from SRD; the request is answered, `st.req <- 0` (42_reader.md rules R145 to R147). -/
def State.takeReadResp (r : ReadResp) (s : State) : State :=
  { s with
    st := { s.st with req := 0 }
    io := { s.io with srd := s.io.srd.tail, trace := s.io.trace ++ [.readResp r] } }

/-- `fbuf` with `b` written at index `n` and the bytes after it (42_reader.md rule R145). -/
def writeFill (buf : Bytes16) (n : Nat) (b : List Byte) : Bytes16 :=
  Vector.ofFn fun i => if n ≤ i.val ∧ i.val < n + b.length then byteAt b (i.val - n) else buf[i]

/-- Append the bytes of a `DATA` response to the fill (42_reader.md rule R145). -/
def State.appendFill (b : List Byte) (s : State) : State :=
  { s with st := { s.st with
      fbuf := writeFill s.st.fbuf s.st.fcnt b
      fcnt := s.st.fcnt + b.length } }

/-- `st.eof <- 1` (42_reader.md rule R147). -/
def State.markEof (s : State) : State := { s with st := { s.st with eof := true } }

/-- `DATA(b)` (42_reader.md rule R145); with fewer than 16 bytes the next step issues the remainder. -/
def State.onData (b : List Byte) (s : State) : State :=
  if (s.appendFill b).st.fcnt = 16 then (s.appendFill b).goto .decrypting else s.appendFill b

/-- `END` and `NOT_READABLE` (42_reader.md rule R147). -/
def State.onEnd (s : State) : State :=
  if s.st.fcnt = 0 then s.markEof.complete .ok s.st.produced none else s.markEof.goto .decrypting

/-- `ERROR(e)` (42_reader.md rule R146): the fill is discarded, the counter is not touched. -/
def State.onReadError (e : SrcErr) (s : State) : State :=
  s.clearFill.complete .sourceIoFailure s.st.produced (some e)

/-- A response to the outstanding read request (42_reader.md rules R145 to R147). -/
def State.onReadResp (r : ReadResp) (s : State) : State :=
  match r with
  | .data b => (s.takeReadResp r).onData b
  | .endOfStream => (s.takeReadResp r).onEnd
  | .notReadable => (s.takeReadResp r).onEnd
  | .error e => (s.takeReadResp r).onReadError e

/-- The plaintext of the fetched block: `fbuf[j] ⊕ ks[j]` for `j` in `0..fcnt-1` (42_reader.md rule R149,
41_keystream_engine.md rule R128). -/
def plainBytes (st : BlockState) : List Byte := (xor16 st.fbuf st.ks).toList.take st.fcnt

/-- `Emit` each byte of the block in order, count them, empty the fill (42_reader.md rule R149). -/
def State.emitBlock (s : State) : State :=
  { s with
    st := { s.st with produced := s.st.produced + BitVec.ofNat 64 s.st.fcnt, fcnt := 0 }
    io := { s.io with trace := s.io.trace ++ (plainBytes s.st).map .out } }

/-- `PASS(op, arg)` (43_control_commands.md rule R160): send `SrcCtl(op, arg)` and wait. -/
def State.pass (op : CtlOp) (arg : Word64) (s : State) : State := (s.log [.ctlReq op arg]).goto .ctlWait

/-- Take the next response from SCTL (43_control_commands.md rule R160). -/
def State.takeCtlResp (r : CtlResp) (s : State) : State :=
  { s with io := { s.io with sctl := s.io.sctl.tail, trace := s.io.trace ++ [.ctlResp r] } }

/-- The answer to a control request (43_control_commands.md rule R160). -/
def State.onCtlResp (r : CtlResp) (s : State) : State :=
  match r with
  | .ok v => (s.takeCtlResp r).complete .ok v none
  | .error e => (s.takeCtlResp r).complete .sourceIoFailure 0 (some e)

/-- The payload of the header at the front of CMD has not arrived in full (30_encoding.md rule R81). -/
def payloadMissing (io : Ports) : Bool :=
  match io.cmd with
  | [] => false
  | h :: _ => io.pay.length < (hdrPlen h).toNat

/-- Reset (70_reset_and_hazards.md rules R200 and R202): the record takes its reset values; the command in progress
is abandoned without a completion; a payload partly received is dropped with its header; the SRD and SCTL channels are
cleared; what was transferred stays in the record. DESIGN CHOICE, unsafe: what becomes of commands not yet begun; out of
`IDLE` a header with part of its payload stays offered, so that a second reset in a row, which finds `IDLE`, can drop a
header the first one kept; `st` is the same after either (notes/assumptions/6.md). -/
def State.assertReset (s : State) : State :=
  { s with
    st := BlockState.reset
    io := { s.io with
      rst := false
      stalled := false
      cmd := if s.st.fsm = .idle ∧ payloadMissing s.io then s.io.cmd.tail else s.io.cmd
      pay := if s.st.fsm = .idle ∧ payloadMissing s.io then [] else s.io.pay
      srd := []
      sctl := []
      trace := s.io.trace ++ [.reset] } }

/-- The host offers a header and its payload before everything else it offers, to a block that is ready to take them:
in `IDLE`, not reset and not stalled. -/
def State.offerFirst (h : Header) (pay : List Byte) (s : State) : State :=
  { s with
    st := { s.st with fsm := .idle }
    io := { s.io with rst := false, stalled := false, cmd := h :: s.io.cmd, pay := pay ++ s.io.pay } }

end Sys2Proof.Machine
end

