-- ==== Sys2Proof/Machine/Control.lean ====
section
/-! DEFINITION. CLOSE and the pass-through commands (43_control_commands.md rules R160 to R165). -/

namespace Sys2Proof.Machine

/-- CLOSE: `PASS(CLOSE, 0)` (43_control_commands.md rule R161). -/
def execClose (s : State) : Host.Outcome State Fault Refusal := .next (s.pass .close 0)

/-- LENGTH: `PASS(LENGTH, 0)` (43_control_commands.md rule R162). -/
def execLength (s : State) : Host.Outcome State Fault Refusal := .next (s.pass .length 0)

/-- POSGET: `PASS(POSITION, 0)` (43_control_commands.md rule R163). -/
def execPosget (s : State) : Host.Outcome State Fault Refusal := .next (s.pass .position 0)

/-- FLUSH: `PASS(FLUSH, 0)` (43_control_commands.md rule R164). -/
def execFlush (s : State) : Host.Outcome State Fault Refusal := .next (s.pass .flush 0)

/-- SETLEN: `PASS(SET_LENGTH, value)`, the value verbatim (43_control_commands.md rule R165). -/
def execSetlen (value : Word64) (s : State) : Host.Outcome State Fault Refusal :=
  .next (s.pass .setLength value)

end Sys2Proof.Machine
end

