-- ==== Sys2Proof/Machine/KeyLoad.lean ====
section
/-! DEFINITION. LDKEY and LDKEYHEX (41_keystream_engine.md rules R123 and R124; the order of checks is that of
60_exceptions.md rule R189). -/

namespace Sys2Proof.Machine

/-- A key candidate of exactly 16 bytes is loaded; any other length is `INVALID_KEY_LENGTH` (60_exceptions.md rule
R184). -/
def State.loadCandidate (b : List Byte) (s : State) : State :=
  match keyOfBytes b with
  | none => s.raise .invalidKeyLength
  | some k => (s.loadKey k).complete .ok 0 none

/-- LDKEY (41_keystream_engine.md rule R123). -/
def execLdkey (pay : List Byte) (s : State) : Host.Outcome State Fault Refusal :=
  .next (if s.st.keyValid then s.raise .unsupportedOperation else s.loadCandidate pay)

/-- LDKEYHEX (41_keystream_engine.md rule R124). -/
def execLdkeyhex (pay : List Byte) (s : State) : Host.Outcome State Fault Refusal :=
  .next (if s.st.keyValid then s.raise .unsupportedOperation
    else match decodeKey pay with
      | none => s.raise .invalidKeyFormat
      | some b => s.loadCandidate b)

end Sys2Proof.Machine
end

