-- ==== Sys2Proof/Machine/Reader.lean ====
section
/-! DEFINITION. READ: ACCEPT_READ (42_reader.md rule R142); the rest of the command is the sequencer's
(Machine/Sequencer.lean). -/

namespace Sys2Proof.Machine

/-- READ (42_reader.md rules R141 and R142): `NO_KEY` without a key, whatever the count; otherwise LOOP_TEST with
`produced = 0`. -/
def execRead (count : BitVec 48) (s : State) : Host.Outcome State Fault Refusal :=
  .next (if s.st.keyValid then (s.startRead count).loopTest else s.raise .noKey)

end Sys2Proof.Machine
end

