-- ==== Sys2Proof/Machine/Rejected.lean ====
section
/-! DEFINITION. WRITE, SEEK and POSSET: "always fails with `UnsupportedOperation`" (43_control_commands.md rules R166
to R168). Their operands are read by no rule (30_encoding.md rule R83). -/

namespace Sys2Proof.Machine

/-- WRITE (43_control_commands.md rule R166). -/
def execWrite (s : State) : Host.Outcome State Fault Refusal := .next (s.raise .unsupportedOperation)

/-- SEEK (43_control_commands.md rule R167). -/
def execSeek (s : State) : Host.Outcome State Fault Refusal := .next (s.raise .unsupportedOperation)

/-- POSSET (43_control_commands.md rule R168). -/
def execPosset (s : State) : Host.Outcome State Fault Refusal := .next (s.raise .unsupportedOperation)

end Sys2Proof.Machine
end

