-- ==== Sys2Proof/Machine/Dispatch.lean ====
section
/-! DEFINITION. One arm for each command of the opcode map (30_encoding.md rule R84). -/

namespace Sys2Proof.Machine

def exec (i : Instr) (s : State) : Host.Outcome State Fault Refusal :=
  match i with
  | .ldkey pay => Sys2Proof.Machine.execLdkey pay s
  | .ldkeyhex pay => Sys2Proof.Machine.execLdkeyhex pay s
  | .read count => Sys2Proof.Machine.execRead count s
  | .close => Sys2Proof.Machine.execClose s
  | .write _ _ _ _ => Sys2Proof.Machine.execWrite s
  | .seek _ _ _ _ => Sys2Proof.Machine.execSeek s
  | .posset _ _ _ _ => Sys2Proof.Machine.execPosset s
  | .length => Sys2Proof.Machine.execLength s
  | .posget => Sys2Proof.Machine.execPosget s
  | .flush => Sys2Proof.Machine.execFlush s
  | .setlen value => Sys2Proof.Machine.execSetlen value s

end Sys2Proof.Machine
end

