-- ==== Sys2Proof/Machine/Sequencer.lean ====
section
/-! DEFINITION. The block's steps, one sequencer state at a time (42_reader.md rules R142 to R150,
43_control_commands.md rule R160), reset before everything (70_reset_and_hazards.md rule R202). Where the block waits
it "simply has no enabled step" (60_exceptions.md rule R199): the step then changes nothing (notes/assumptions/5.md). -/

namespace Sys2Proof.Machine

/-- Run an accepted command: the decoded one, or an illegal header, which completes `ILLEGAL_COMMAND` and changes
nothing else (30_encoding.md rule R86, 60_exceptions.md rule R182). -/
def runCommand (d : Except DecodeError Instr) (s : State) : Host.Outcome State Fault Refusal :=
  match d with
  | .ok i => exec i s
  | .error _ => .next (s.raise .illegalCommand)

/-- In `IDLE`: accept the header at the front of CMD once its whole payload is there (30_encoding.md rule R81,
20_memory.md rule R71). -/
def idleStep (s : State) : Host.Outcome State Fault Refusal :=
  match s.io.cmd with
  | [] => .next s
  | h :: _ =>
    if s.io.pay.length < (hdrPlen h).toNat then .next s
    else runCommand (decode h (s.io.pay.take (hdrPlen h).toNat)) (s.accept h)

/-- In `FILLING`: issue a request, or take the response to the outstanding one (42_reader.md rules R144 to R147). -/
def fillingStep (s : State) : Host.Outcome State Fault Refusal :=
  if s.st.req = 0 then .next s.issueRead
  else match s.io.srd with
    | [] => .next s
    | r :: _ => if readContract s.st.req r then .next (s.onReadResp r) else .refused .sourceOutsideContract

/-- In `CTL_WAIT`: take the answer of the source (43_control_commands.md rule R160). -/
def ctlWaitStep (s : State) : Host.Outcome State Fault Refusal :=
  match s.io.sctl with
  | [] => .next s
  | r :: _ => .next (s.onCtlResp r)

/-- One step of the block (42_reader.md rule R150). -/
def blockStep (s : State) : Host.Outcome State Fault Refusal :=
  match s.st.fsm with
  | .idle => idleStep s
  | .filling => fillingStep s
  | .decrypting => .next (s.ksBlock.goto .appending)
  | .appending => .next s.emitBlock.loopTest
  | .ctlWait => ctlWaitStep s

/-- One step of the machine: reset first; no block step while a transfer it offered has not been taken (20_memory.md
rule R52); otherwise the block's step. -/
def cycle (s : State) : Host.Outcome State Fault Refusal :=
  if s.io.rst then .next s.assertReset
  else if s.io.stalled then .next s
  else blockStep s

end Sys2Proof.Machine
end

