-- ==== Sys2Proof/Machine/Step.lean ====
section
/-! DEFINITION. The machine's step, and a command placed where the step takes its next one. -/

namespace Sys2Proof.Machine

/-- One step (Machine/Sequencer.lean). -/
def step (s : State) : Host.Outcome State Fault Refusal := cycle s

/-- The command whose bits are `w`, offered on CMD and PAY so that the next step accepts it: the host's move, since no
program is stored in the block (notes/assumptions/10.md). -/
def State.withFetchWord (s : State) (nbits w : Nat) : State :=
  s.offerFirst (tableHeader nbits w) (tablePayload nbits w)

end Sys2Proof.Machine
end

