-- ==== Sys2Proof/Machine/Assembler.lean ====
section
/-! DEFINITION. The assembly syntax of 30_encoding.md rule R90: one constructor for each line of its table, and the
header and payload a line stands for. It is "a notation for writing command sequences"; nothing in the machine uses
it. -/

namespace Sys2Proof.Machine

/-- A line of assembly (30_encoding.md rule R90). -/
inductive AsmLine where
  | ldkey (bytes : List Byte)
  | ldkeyhex (chars : List Byte)
  | read (count : BitVec 48)
  | close
  | write (bytes : List Byte)
  | seek (offset : Word64) (origin : BitVec 8)
  | posset (position : Word64)
  | length
  | posget
  | flush
  | setlen (value : Word64)
  /-- `.hdr`: a header written literally, also an illegal one. -/
  | hdr (h : Header) (pay : List Byte)
deriving DecidableEq, Repr

/-- What a line stands for; "Every field not named in a row is 0" (30_encoding.md rule R90). -/
def assemble : AsmLine → Header × List Byte
  | .ldkey bytes => (mkHeader 0x01 0 (plenField bytes) 0 0, bytes)
  | .ldkeyhex chars => (mkHeader 0x02 0 (plenField chars) 0 0, chars)
  | .read count => (mkHeader 0x10 0 0 0 (count.setWidth 64), [])
  | .close => (mkHeader 0x11 0 0 0 0, [])
  | .write bytes => (mkHeader 0x20 0 (plenField bytes) 0 0, bytes)
  | .seek offset origin => (mkHeader 0x21 origin 0 0 offset, [])
  | .posset position => (mkHeader 0x22 0 0 0 position, [])
  | .length => (mkHeader 0x30 0 0 0 0, [])
  | .posget => (mkHeader 0x31 0 0 0 0, [])
  | .flush => (mkHeader 0x32 0 0 0 0, [])
  | .setlen value => (mkHeader 0x33 0 0 0 value, [])
  | .hdr h pay => (h, pay)

end Sys2Proof.Machine
end

