-- ==== Sys2Proof/Machine/Agents.lean ====
section
/-! DEFINITION. The three agents of 20_memory.md rule R50 and their moves: the block's step, what the host may do on
CMD, PAY and by delaying (rule R52, 30_encoding.md rule R81), what the source may answer (20_memory.md rules R54, R56
and R57), and reset (70_reset_and_hazards.md rule R202). A run of the system is a list of moves, in any order. -/

namespace Sys2Proof.Machine

/-- A move of one agent. -/
inductive Move where
  /-- The block takes a step (or none, where none is enabled). -/
  | block
  /-- The host offers a header on CMD. -/
  | hostHeader (h : Header)
  /-- The host offers a payload byte on PAY. -/
  | hostPayload (x : Byte)
  /-- An agent delays taking a transfer, or takes it at last (20_memory.md rule R52). -/
  | delay (waiting : Bool)
  /-- The source answers the outstanding read request. -/
  | sourceRead (r : ReadResp)
  /-- The source answers the outstanding control request. -/
  | sourceCtl (r : CtlResp)
  /-- Reset is asserted. -/
  | assertReset
deriving DecidableEq, Repr

/-- The payload bytes that the headers on CMD announce and that the host has not sent yet (30_encoding.md rule R81). -/
def payloadOwed (io : Ports) : Nat := (io.cmd.map fun h => (hdrPlen h).toNat).sum - io.pay.length

/-- The source has a read request to answer (20_memory.md rule R57). -/
def awaitsRead (s : State) : Bool := s.st.fsm == .filling && s.st.req != 0 && s.io.srd.isEmpty

/-- The source has a control request to answer (20_memory.md rule R57). -/
def awaitsCtl (s : State) : Bool := s.st.fsm == .ctlWait && s.io.sctl.isEmpty

/-- A move, refused where the spec gives the agent no such move. -/
def move (m : Move) (s : State) : Host.Outcome State Fault Refusal :=
  match m with
  | .block => step s
  | .hostHeader h => .next { s with io := { s.io with cmd := s.io.cmd ++ [h] } }
  | .hostPayload x =>
    if 0 < payloadOwed s.io then .next { s with io := { s.io with pay := s.io.pay ++ [x] } }
    else .refused .noSuchMove
  | .delay waiting => .next { s with io := { s.io with stalled := waiting } }
  | .sourceRead r =>
    if awaitsRead s && readContract s.st.req r then .next { s with io := { s.io with srd := [r] } }
    else .refused .noSuchMove
  | .sourceCtl r =>
    if awaitsCtl s then .next { s with io := { s.io with sctl := [r] } } else .refused .noSuchMove
  | .assertReset => .next { s with io := { s.io with rst := true } }

/-- A run of the system: the moves in order, stopping at the first refusal. -/
def moves : List Move → State → Host.Outcome State Fault Refusal
  | [], s => .next s
  | m :: ms, s =>
    match move m s with
    | .next s' => moves ms s'
    | .fault r => .fault r
    | .refused r => .refused r

/-- `k` steps of the machine, stopping at the first refusal. -/
def steps : Nat → State → Host.Outcome State Fault Refusal
  | 0, s => .next s
  | k + 1, s =>
    match step s with
    | .next s' => steps k s'
    | .fault r => .fault r
    | .refused r => .refused r

/-- `k` moves of the system with a host that takes everything and a source that answers every request at once, each
answer chosen by `src`: the source answers where it has a request to answer, otherwise the block steps. A refused move
leaves the state as it is. Used in claims only; a choice of answers is no state (42_reader.md rule R157). -/
def drive (src : State → ReadResp) : Nat → State → State
  | 0, s => s
  | k + 1, s =>
    match move (if awaitsRead s then .sourceRead (src s) else .block) s with
    | .next s' => drive src k s'
    | .fault _ => drive src k s
    | .refused _ => drive src k s

end Sys2Proof.Machine
end

