-- ==== Sys2Proof/Safety.lean ====
section
/-! DEFINITION. What counts as a safe run, in the terms the claims use: a step that is answered, the record of transfers
read as streams (20_memory.md rules R58 to R60), against the port protocol (rules R57 and R70 to R72), as a tally of
each READ (rule R29 of 10_state.md) and as what left the ports (rule R52), and the invariants of the block. -/

namespace Sys2Proof.Machine

/-- The step is answered with a next state: no fault, no refusal. -/
def Answered (o : Host.Outcome State Fault Refusal) : Prop := ∃ t, o = .next t

/-- The machine is free to take a block step: not reset, and every transfer it offered has been taken (20_memory.md
rule R52). -/
def Free (s : State) : Prop := s.io.rst = false ∧ s.io.stalled = false

/-- From `s` to `t` the ports change by the transfers `es` and nothing else, and the parameter stays. -/
def Transfers (s t : State) (es : List Event) : Prop :=
  t.io = { s.io with trace := s.io.trace ++ es } ∧ t.ctrIncBits = s.ctrIncBits

/-- The completion event of the command latched in `s` (30_encoding.md rule R88). -/
def cplEvent (s : State) (status : Status) (value : Word64) (err : Option SrcErr) : Event :=
  .cpl (completionWord status (hdrOp s.st.cmd) value) err

/-- The rows of spec/opcode_table.json in its order, each its mask and its match (30_encoding.md rules R84 and R85). -/
def opcodeRows : List (Header × Header) :=
  [(0xffff0000ffffffffffffffffffffffff, 0x01000000000000000000000000000000),
   (0xffff0000ffffffffffffffffffffffff, 0x02000000000000000000000000000000),
   (0xffffffffffffffffffff000000000000, 0x10000000000000000000000000000000),
   (0xffffffffffffffffffffffffffffffff, 0x11000000000000000000000000000000),
   (0xff000000000000000000000000000000, 0x20000000000000000000000000000000),
   (0xff000000000000000000000000000000, 0x21000000000000000000000000000000),
   (0xff000000000000000000000000000000, 0x22000000000000000000000000000000),
   (0xffffffffffffffffffffffffffffffff, 0x30000000000000000000000000000000),
   (0xffffffffffffffffffffffffffffffff, 0x31000000000000000000000000000000),
   (0xffffffffffffffffffffffffffffffff, 0x32000000000000000000000000000000),
   (0xffffffffffffffff0000000000000000, 0x33000000000000000000000000000000)]

/-- The header matches a row of the opcode table (30_encoding.md rule R85). -/
def matchesRow (h : Header) (row : Header × Header) : Bool := h &&& row.1 == row.2

/-- The header is legal: it matches some row (30_encoding.md rule R86). -/
def legalHeader (h : Header) : Bool := opcodeRows.any (matchesRow h)

/-- The pass-through commands with the control request each sends (43_control_commands.md rules R161 to R165). -/
def passRequest : Instr → Option (CtlOp × Word64)
  | .close => some (.close, 0)
  | .length => some (.length, 0)
  | .posget => some (.position, 0)
  | .flush => some (.flush, 0)
  | .setlen value => some (.setLength, value)
  | .ldkey _ => none
  | .ldkeyhex _ => none
  | .read _ => none
  | .write _ _ _ _ => none
  | .seek _ _ _ _ => none
  | .posset _ _ _ _ => none

/-- The SRD transfers of a fill whose remainder is `n` bytes and which receives the given chunks: each request is for
the remainder (20_memory.md rule R66). -/
def fillEvents : Nat → List (List Byte) → List Event
  | _, [] => []
  | n, c :: cs => .readReq n :: .readResp (.data c) :: fillEvents (n - c.length) cs

/-- The streams since the last reset: the plaintext emitted, the ciphertext bytes it was decrypted from, and the
ciphertext bytes of the fill in progress. -/
structure Stream where
  out : List Byte
  dec : List Byte
  fill : List Byte
deriving DecidableEq, Repr

/-- One event of the streams: `DATA` adds to the fill, an upstream error discards it (42_reader.md rule R146), and each
emitted byte is decrypted from the first byte of the fill (20_memory.md rules R58 and R59). -/
def streamEvent (v : Stream) : Event → Stream
  | .reset => ⟨[], [], []⟩
  | .readResp (.data b) => { v with fill := v.fill ++ b }
  | .readResp (.error _) => { v with fill := [] }
  | .readResp .endOfStream => v
  | .readResp .notReadable => v
  | .out x => ⟨v.out ++ [x], v.dec ++ v.fill.take 1, v.fill.drop 1⟩
  | .accept _ _ => v
  | .readReq _ => v
  | .ctlReq _ _ => v
  | .ctlResp _ => v
  | .cpl _ _ => v

/-- The streams of a record of transfers. -/
def stream (trace : List Event) : Stream := trace.foldl streamEvent ⟨[], [], []⟩

/-- The part of a record of transfers after its last reset (70_reset_and_hazards.md rule R201: one stream per reset). -/
def sinceReset (trace : List Event) : List Event :=
  trace.foldl (fun es e => if e = .reset then [] else es ++ [e]) []

/-- The ciphertext bytes that one event delivers to the block (20_memory.md rule R53). -/
def deliveredBytes : Event → List Byte
  | .readResp (.data b) => b
  | _ => []

/-- The plaintext bytes of one event (20_memory.md rule R58). -/
def emittedBytes : Event → List Byte
  | .out x => [x]
  | _ => []

/-- The event takes an upstream error on SRD (42_reader.md rule R146). -/
def isReadError : Event → Bool
  | .readResp (.error _) => true
  | _ => false

/-- The ciphertext the source has delivered since the last reset, whether decrypted or not (20_memory.md rule R53). -/
def delivered (trace : List Event) : List Byte := (sinceReset trace).flatMap deliveredBytes

/-- The plaintext emitted since the last reset (20_memory.md rule R58). -/
def emitted (trace : List Event) : List Byte := (sinceReset trace).flatMap emittedBytes

/-- No upstream read has failed since the last reset (42_reader.md rule R153, "no `SOURCE_IO_FAILURE`"). -/
def noReadError (trace : List Event) : Bool := !(sinceReset trace).any isReadError

/-- The headers taken from CMD by a list of events, in order (20_memory.md rule R52). -/
def takenHeaders (es : List Event) : List Header :=
  es.filterMap fun e => match e with
    | .accept h _ => some h
    | _ => none

/-- The payload bytes taken from PAY by a list of events, in order (20_memory.md rule R52). -/
def takenPayload (es : List Event) : List Byte :=
  es.flatMap fun e => match e with
    | .accept _ pay => pay
    | _ => []

/-- The answers taken from SRD by a list of events, in order (20_memory.md rule R52). -/
def takenReads (es : List Event) : List ReadResp :=
  es.filterMap fun e => match e with
    | .readResp r => some r
    | _ => none

/-- The answers taken from SCTL by a list of events, in order (20_memory.md rule R52). -/
def takenCtls (es : List Event) : List CtlResp :=
  es.filterMap fun e => match e with
    | .ctlResp r => some r
    | _ => none

/-- What a move puts on CMD. -/
def offeredHeaders (m : Move) : List Header :=
  match m with
  | .hostHeader h => [h]
  | _ => []

/-- What a move puts on PAY. -/
def offeredPayload (m : Move) : List Byte :=
  match m with
  | .hostPayload x => [x]
  | _ => []

/-- What a move puts on SRD. -/
def offeredReads (m : Move) : List ReadResp :=
  match m with
  | .sourceRead r => [r]
  | _ => []

/-- What a move puts on SCTL. -/
def offeredCtls (m : Move) : List CtlResp :=
  match m with
  | .sourceCtl r => [r]
  | _ => []

/-- The plaintext bytes emitted since the last command was accepted, and whether every completion of a READ so far has
reported as VALUE the number of bytes emitted since its acceptance. -/
structure Tally where
  outs : Nat
  agree : Bool
deriving DecidableEq, Repr

/-- One event of the tally: a completion that echoes the `OP` of READ must report the bytes emitted since the
acceptance (30_encoding.md rule R88 "READ: `produced`", 42_reader.md rules R146 and R151). -/
def tallyEvent (v : Tally) : Event → Tally
  | .accept _ _ => { v with outs := 0 }
  | .reset => { v with outs := 0 }
  | .out _ => { v with outs := v.outs + 1 }
  | .cpl w _ => { v with agree := v.agree && (cplOpe w != 0x10 || (cplValue w).toNat == v.outs) }
  | .readReq _ => v
  | .readResp _ => v
  | .ctlReq _ _ => v
  | .ctlResp _ => v

/-- The tally of a record of transfers. -/
def tally (trace : List Event) : Tally := trace.foldl tallyEvent ⟨0, true⟩

/-- The keystream byte for stream position `d`: byte `d mod 16` of keystream block `floor(d / 16)`, whose counter is
`BE_16(floor(d / 16) mod 2^m)` (20_memory.md rules R60 and R62, 41_keystream_engine.md rule R130). -/
def keystreamByte (rk : RoundKeys) (m d : Nat) : Byte :=
  byteAt (aes128 rk (ofBE16 (d / 16 % 2 ^ m))).toList (d % 16)

/-- The invariant of the block's record (10_state.md rules R21 to R38, 42_reader.md rules R142 to R152). -/
structure BlockInv (s : State) : Prop where
  /-- Rule R26: `fcnt` is 0 to 16. -/
  fillBound : s.st.fcnt ≤ 16
  /-- Rule R31: a read request is outstanding only in `FILLING`, and then for the remainder of the block. -/
  request : s.st.req = 0 ∨ (s.st.fsm = .filling ∧ s.st.req = 16 - s.st.fcnt)
  /-- Rule R38: between commands, and in a control command, the fill is empty. -/
  idleEmpty : s.st.fsm = .idle ∨ s.st.fsm = .ctlWait → s.st.fcnt = 0
  /-- Rule R143: a fill is in progress only before end of stream, and is not full. -/
  filling : s.st.fsm = .filling → s.st.eof = false ∧ s.st.fcnt < 16
  /-- Rule R148: a block handed to the engine has 16 bytes, or 1 to 15 at end of stream. -/
  blockReady : s.st.fsm = .decrypting ∨ s.st.fsm = .appending →
    1 ≤ s.st.fcnt ∧ (s.st.eof = false → s.st.fcnt = 16)
  /-- Rules R25, R142 and R148: a READ executes with a key, an initialised cipher and a count not yet reached. -/
  reading : s.st.fsm = .filling ∨ s.st.fsm = .decrypting ∨ s.st.fsm = .appending →
    s.st.keyValid = true ∧ s.st.init = true ∧ s.st.produced.toNat < s.st.count.toNat
  /-- Rule R152: a READ overshoots by at most 15 bytes. -/
  overshoot : s.st.produced.toNat ≤ s.st.count.toNat + 15
  /-- Rule R125: the cipher is initialised from a loaded key. -/
  initKey : s.st.init = true → s.st.keyValid = true ∧ s.st.rk = keyExpansion s.st.key
  /-- Rule R37: before INIT no keystream block has been computed. -/
  initCtr : s.st.init = false → s.st.ctr = ofBE16 0
  /-- Rule R37: the upper `128 − CTR_INC_BITS` bits of the counter are zero. -/
  ctrBound : be16 s.st.ctr < 2 ^ s.ctrIncBits.val

/-- The invariant of the streams since reset (20_memory.md rules R59 and R60, 10_state.md rules R36 and R37). -/
structure StreamInv (s : State) : Prop where
  /-- Rule R26: the fill buffer holds the bytes received for this block, in arrival order. -/
  fill : (stream s.io.trace).fill = s.st.fbuf.toList.take s.st.fcnt
  /-- Rule R59: byte for byte. -/
  lengths : (stream s.io.trace).dec.length = (stream s.io.trace).out.length
  /-- Rule R60: each emitted byte is its ciphertext byte XORed with its keystream byte. -/
  bytes : ∀ d, d < (stream s.io.trace).out.length →
    byteAt (stream s.io.trace).out d =
      byteAt (stream s.io.trace).dec d ^^^ keystreamByte s.st.rk s.ctrIncBits.val d
  /-- Rule R60: blocks start at multiples of 16; only the last block before end of stream is partial. -/
  aligned : s.st.eof = false ∨ s.st.fsm = .decrypting ∨ s.st.fsm = .appending →
    (stream s.io.trace).out.length % 16 = 0
  /-- Rule R37: the counter is the number of keystream blocks computed since reset. -/
  counter : be16 s.st.ctr =
    (((stream s.io.trace).out.length + 15) / 16 + (if s.st.fsm = .appending then 1 else 0)) % 2 ^ s.ctrIncBits.val
  /-- Rule R127: in `APPENDING`, `ks` is the keystream block of the block being appended. -/
  current : s.st.fsm = .appending →
    s.st.ks = aes128 s.st.rk (ofBE16 ((stream s.io.trace).out.length / 16 % 2 ^ s.ctrIncBits.val))
  /-- Rule R23: nothing is emitted before INIT. -/
  quiet : s.st.init = false → (stream s.io.trace).out = []

/-- What an observer of the ports knows: the command being executed, the size of the read request outstanding (0 if
none) and whether a control request is outstanding. -/
structure Monitor where
  cmd : Option Header
  req : Nat
  ctl : Bool
deriving DecidableEq, Repr

/-- The port protocol, `none` for an event out of order: one command at a time, each ended by one completion that
echoes its OP with a code of 30_encoding.md rule R89 and zeros where rule R88 says (20_memory.md rule R71); one request
at a time (rule R57), a response only to an outstanding request and within the contract (rule R54); output only within
a READ and with no request outstanding (rule R72). -/
def monitorEvent (m : Monitor) (e : Event) : Option Monitor :=
  match e with
  | .reset => some ⟨none, 0, false⟩
  | .accept h pay =>
    if m = ⟨none, 0, false⟩ ∧ pay.length = (hdrPlen h).toNat then some ⟨some h, 0, false⟩ else none
  | .readReq n =>
    if m.req = 0 ∧ m.ctl = false ∧ 1 ≤ n ∧ n ≤ 16 ∧ m.cmd.map hdrOp = some 0x10 then some { m with req := n } else none
  | .readResp r => if 0 < m.req ∧ readContract m.req r = true then some { m with req := 0 } else none
  | .ctlReq _ _ => if m.req = 0 ∧ m.ctl = false ∧ m.cmd.isSome then some { m with ctl := true } else none
  | .ctlResp _ => if m.ctl = true then some { m with ctl := false } else none
  | .out _ => if m.req = 0 ∧ m.ctl = false ∧ m.cmd.map hdrOp = some 0x10 then some m else none
  | .cpl w _ =>
    if m.req = 0 ∧ m.ctl = false ∧ m.cmd.map hdrOp = some (cplOpe w) ∧ (cplStatus w).toNat ≤ 6 ∧ cplZero w = 0 then
      some ⟨none, 0, false⟩
    else none

/-- The observer after a record of transfers, `none` if some event broke the protocol. -/
def monitor (trace : List Event) : Option Monitor :=
  trace.foldl (fun m e => m.bind fun m => monitorEvent m e) (some ⟨none, 0, false⟩)

/-- The invariant of the ports: the record keeps the protocol, and the block stands where the observer thinks it does
(20_memory.md rules R57 and R70 to R72, 10_state.md rule R32). -/
structure ProtocolInv (s : State) : Prop where
  /-- The record keeps the protocol. -/
  kept : monitor s.io.trace =
    some ⟨if s.st.fsm = .idle then none else some s.st.cmd, s.st.req, s.st.fsm == .ctlWait⟩
  /-- Rule R30: only a READ fills, decrypts and appends. -/
  readOp : s.st.fsm = .filling ∨ s.st.fsm = .decrypting ∨ s.st.fsm = .appending → hdrOp s.st.cmd = 0x10

/-- The invariant of VALUE: `produced` counts the bytes a READ has emitted, and every completed READ reported that
count (10_state.md rule R29, 42_reader.md rules R146 and R151). -/
structure ValueInv (s : State) : Prop where
  /-- Rules R146 and R151: VALUE is the number of bytes emitted since the READ was accepted. -/
  agree : (tally s.io.trace).agree = true
  /-- Rule R29: `produced` is the number of bytes the current READ has emitted. -/
  produced : s.st.fsm = .filling ∨ s.st.fsm = .decrypting ∨ s.st.fsm = .appending →
    s.st.produced.toNat = (tally s.io.trace).outs
  /-- Rule R151: before its last block a READ has emitted whole blocks. -/
  whole : s.st.fsm = .filling ∨ s.st.fsm = .decrypting ∨ s.st.fsm = .appending → 16 ∣ s.st.produced.toNat
  /-- 43_control_commands.md rule R160: READ never waits on a control answer. -/
  control : s.st.fsm = .ctlWait → hdrOp s.st.cmd ≠ 0x10

/-- What is waiting on the source's side of SRD and SCTL: nothing, or one answer to the request outstanding, within the
source contract (20_memory.md rules R54, R56 and R57). -/
structure SourceInv (s : State) : Prop where
  /-- At most one read answer, to the outstanding request, within rule R54. -/
  read : s.io.srd = [] ∨
    ∃ r, s.io.srd = [r] ∧ s.st.fsm = .filling ∧ 0 < s.st.req ∧ readContract s.st.req r = true
  /-- At most one control answer, to the outstanding request. -/
  ctl : s.io.sctl = [] ∨ ∃ r, s.io.sctl = [r] ∧ s.st.fsm = .ctlWait

/-- The invariant of the whole system. -/
structure SystemInv (s : State) : Prop where
  block : BlockInv s
  streams : StreamInv s
  protocol : ProtocolInv s
  value : ValueInv s
  source : SourceInv s

end Sys2Proof.Machine
end

