-- ==== Sys2Proof/Certificates/Slice0/Obligations.lean ====
section
/-! DEFINITION. The statements for the provers. Each docstring names the rule of the spec a statement formalises, or
the log entry it rests on where it states a choice of the model. -/

open Sys2Proof Sys2Proof.Machine

/-- 41_keystream_engine.md rule R123, whole: LDKEY's encoding, its three outcomes in the order of the rule's checks, and
all it changes. -/
def Obligations.LdkeyLoadsKeyOrReports : Prop :=
  ∀ (pay : List Byte) (s : State),
    decode (mkHeader 0x01 0 (plenField pay) 0 0) pay = .ok (.ldkey pay) ∧
    ∃ t, exec (.ldkey pay) s = .next t ∧
      (if s.st.keyValid = true then
        t.st = { s.st with fsm := .idle } ∧ Transfers s t [cplEvent s .unsupportedOperation 0 none]
      else if pay.length ≠ 16 then
        t.st = { s.st with fsm := .idle } ∧ Transfers s t [cplEvent s .invalidKeyLength 0 none]
      else
        t.st.key.toList = pay ∧ t.st = { s.st with key := t.st.key, keyValid := true, fsm := .idle } ∧
          Transfers s t [cplEvent s .ok 0 none])

/-- 41_keystream_engine.md rule R124, whole: LDKEYHEX's encoding, its four outcomes in the order of the rule's checks,
and all it changes. -/
def Obligations.LdkeyhexLoadsKeyOrReports : Prop :=
  ∀ (pay : List Byte) (s : State),
    decode (mkHeader 0x02 0 (plenField pay) 0 0) pay = .ok (.ldkeyhex pay) ∧
    ∃ t, exec (.ldkeyhex pay) s = .next t ∧
      (if s.st.keyValid = true then
        t.st = { s.st with fsm := .idle } ∧ Transfers s t [cplEvent s .unsupportedOperation 0 none]
      else if decodeKey pay = none then
        t.st = { s.st with fsm := .idle } ∧ Transfers s t [cplEvent s .invalidKeyFormat 0 none]
      else if pay.length ≠ 32 then
        t.st = { s.st with fsm := .idle } ∧ Transfers s t [cplEvent s .invalidKeyLength 0 none]
      else
        decodeKey pay = some t.st.key.toList ∧
          t.st = { s.st with key := t.st.key, keyValid := true, fsm := .idle } ∧
          Transfers s t [cplEvent s .ok 0 none])

/-- 41_keystream_engine.md rules R121 and R122: when `decodeKey` fails, and byte by byte what it returns; the 22 hex
digits and their values. -/
def Obligations.DecodeKeyReadsHexPairs : Prop :=
  (∀ s : List Byte, decodeKey s = none ↔ s.length % 2 = 1 ∨ ∃ ch ∈ s, isHex ch = false) ∧
  (∀ s b : List Byte, decodeKey s = some b → b.length = s.length / 2 ∧
    ∀ j, j < b.length →
      (byteAt b j).toNat = 16 * (hexValue (byteAt s (2 * j))).toNat + (hexValue (byteAt s (2 * j + 1))).toNat) ∧
  (∀ ch : Byte, isHex ch = true ↔
    (∃ d, d < 10 ∧ ch.toNat = 0x30 + d ∧ (hexValue ch).toNat = d) ∨
    (∃ d, d < 6 ∧ ch.toNat = 0x41 + d ∧ (hexValue ch).toNat = 10 + d) ∨
    (∃ d, d < 6 ∧ ch.toNat = 0x61 + d ∧ (hexValue ch).toNat = 10 + d))

/-- 42_reader.md rule R142, with FETCH_START of rule R143: what accepting a READ does, in the rule's order of checks,
and all it changes: INIT where `init = 0` and the loop is entered. -/
def Obligations.ReadAcceptFollowsLoopTest : Prop :=
  ∀ (count : BitVec 48) (s : State), ∃ t, exec (.read count) s = .next t ∧
    (if s.st.keyValid = false then
      t.st = { s.st with fsm := .idle } ∧ Transfers s t [cplEvent s .noKey 0 none]
    else if count = 0 then
      t.st = { s.st with count := 0, produced := 0, fsm := .idle } ∧ Transfers s t [cplEvent s .ok 0 none]
    else
      t.st = { s.st with
        count := count
        produced := 0
        init := true
        rk := if s.st.init then s.st.rk else keyExpansion s.st.key
        ctr := if s.st.init then s.st.ctr else ofBE16 0
        fcnt := 0
        fsm := if s.st.eof then .idle else .filling } ∧
      Transfers s t (if s.st.eof then [cplEvent s .ok 0 none] else []))

/-- 43_control_commands.md rules R160 to R165: each pass-through command sends its control request and waits, with or
without a key; nothing else changes. -/
def Obligations.PassThroughSendsItsRequest : Prop :=
  ∀ (i : Instr) (op : CtlOp) (arg : Word64) (s : State), passRequest i = some (op, arg) →
    ∃ t, exec i s = .next t ∧ t.st = { s.st with fsm := .ctlWait } ∧ Transfers s t [.ctlReq op arg]

/-- 43_control_commands.md rule R160: the source's answer completes the command, its value and its error verbatim;
nothing else changes. -/
def Obligations.PassThroughAnswerCompletes : Prop :=
  ∀ (s : State) (r : CtlResp) (rest : List CtlResp),
    Free s → s.st.fsm = .ctlWait → s.io.sctl = r :: rest →
    ∃ t, step s = .next t ∧ t.st = { s.st with fsm := .idle } ∧ t.ctrIncBits = s.ctrIncBits ∧
      t.io = { s.io with
        sctl := rest
        trace := s.io.trace ++ [.ctlResp r,
          match r with
          | .ok v => cplEvent s .ok v none
          | .error e => cplEvent s .sourceIoFailure 0 (some e)] }

/-- 43_control_commands.md rules R166 to R168: WRITE, SEEK and POSSET complete `UNSUPPORTED_OPERATION` in every state
and whatever their fields; nothing else changes. -/
def Obligations.RejectedOperationsAlwaysUnsupported : Prop :=
  ∀ (x : BitVec 8) (rsv : BitVec 32) (arg : BitVec 64) (pay : List Byte) (s : State) (i : Instr),
    i ∈ [Instr.write x rsv arg pay, .seek x rsv arg pay, .posset x rsv arg pay] →
    ∃ t, exec i s = .next t ∧ t.st = { s.st with fsm := .idle } ∧
      Transfers s t [cplEvent s .unsupportedOperation 0 none]

/-- 30_encoding.md rules R85 and R86, 60_exceptions.md rule R182: a header that matches no row of the opcode table
completes `ILLEGAL_COMMAND` with its own OP echoed and VALUE 0; its payload is consumed and no state but the latched
header changes. That the latch takes an illegal header too, and that one step both takes the header with its payload and
completes it, where 00_scope.md rule R14 lists accepting and completing apart, is the model's reading (DEDUCED, log entry
4). -/
def Obligations.IllegalHeaderCompletes : Prop :=
  ∀ (s : State) (h : Header) (rest : List Header), Free s → s.st.fsm = .idle → s.io.cmd = h :: rest →
    (hdrPlen h).toNat ≤ s.io.pay.length → legalHeader h = false →
    ∃ t, step s = .next t ∧ t.st = { s.st with cmd := h } ∧ t.ctrIncBits = s.ctrIncBits ∧
      t.io = { s.io with
        cmd := rest
        pay := s.io.pay.drop (hdrPlen h).toNat
        trace := s.io.trace ++ [.accept h (s.io.pay.take (hdrPlen h).toNat),
          .cpl (completionWord .illegalCommand (hdrOp h) 0) none] }

/-- A step runs the decoded instruction: where the header at the front of CMD, with its payload, decodes to `i`, the
step is `exec i` after the acceptance of the command (30_encoding.md rule R81, 10_state.md rule R32): the header latched,
header and payload taken from their ports and recorded. That the acceptance and the command's first effects are one step
is what 42_reader.md rules R142 and R150 and 43_control_commands.md rule R160 say of READ and the pass-through commands;
for the other commands, whose completion 00_scope.md rule R14 lists as a step of its own, it is the model's reading
(DEDUCED, log entry 4). -/
def Obligations.StepRunsDecodedCommand : Prop :=
  ∀ (s : State) (h : Header) (rest : List Header) (i : Instr), Free s → s.st.fsm = .idle → s.io.cmd = h :: rest →
    (hdrPlen h).toNat ≤ s.io.pay.length → decode h (s.io.pay.take (hdrPlen h).toNat) = .ok i →
    i.WellFormed ∧
    step s = exec i { s with
      st := { s.st with cmd := h }
      io := { s.io with
        cmd := rest
        pay := s.io.pay.drop (hdrPlen h).toNat
        trace := s.io.trace ++ [.accept h (s.io.pay.take (hdrPlen h).toNat)] } }

/-- 20_memory.md rules R52 and R55, 30_encoding.md rule R81, 60_exceptions.md rule R199: where the block waits for a
transfer it has no enabled step. That such a step is one that changes nothing is the model's choice (log entry 5). -/
def Obligations.WaitingChangesNothing : Prop :=
  ∀ s : State, s.io.rst = false →
    (s.io.stalled = true ∨
      (s.st.fsm = .idle ∧ (s.io.cmd = [] ∨ ∃ h rest, s.io.cmd = h :: rest ∧ s.io.pay.length < (hdrPlen h).toNat)) ∨
      (s.st.fsm = .filling ∧ 0 < s.st.req ∧ s.io.srd = []) ∨
      (s.st.fsm = .ctlWait ∧ s.io.sctl = [])) →
    step s = .next s

/-- 42_reader.md rule R144, whole: in `FILLING` with no request outstanding the step sends `SrcRead(16 − fcnt)`. -/
def Obligations.FillIssuesRemainder : Prop :=
  ∀ s : State, Free s → s.st.fsm = .filling → s.st.req = 0 →
    ∃ t, step s = .next t ∧ t.st = { s.st with req := 16 - s.st.fcnt } ∧
      Transfers s t [.readReq (16 - s.st.fcnt)]

/-- 42_reader.md rule R145, whole: a `DATA` response within the source contract is appended to the fill; 16 bytes go to
the engine, fewer are not end of stream. -/
def Obligations.DataResponseAppendsToFill : Prop :=
  ∀ (s : State) (b : List Byte) (rest : List ReadResp),
    Free s → s.st.fsm = .filling → s.io.srd = .data b :: rest → 1 ≤ b.length → b.length ≤ s.st.req →
    s.st.fcnt + s.st.req ≤ 16 →
    ∃ t, step s = .next t ∧
      t.st = { s.st with
        fbuf := t.st.fbuf
        fcnt := s.st.fcnt + b.length
        req := 0
        fsm := if s.st.fcnt + b.length = 16 then .decrypting else .filling } ∧
      (∀ j, j < s.st.fcnt → byteAt t.st.fbuf.toList j = byteAt s.st.fbuf.toList j) ∧
      (∀ j, j < b.length → byteAt t.st.fbuf.toList (s.st.fcnt + j) = byteAt b j) ∧
      t.io = { s.io with srd := rest, trace := s.io.trace ++ [.readResp (.data b)] } ∧
      t.ctrIncBits = s.ctrIncBits

/-- 42_reader.md rule R146: an upstream error discards the fill and completes `SOURCE_IO_FAILURE` with VALUE `produced`
and the source's error verbatim; counter, `init` and `eof` are unchanged. -/
def Obligations.ReadErrorDiscardsFill : Prop :=
  ∀ (s : State) (e : SrcErr) (rest : List ReadResp),
    Free s → s.st.fsm = .filling → 0 < s.st.req → s.io.srd = .error e :: rest →
    ∃ t, step s = .next t ∧ t.st = { s.st with fcnt := 0, req := 0, fsm := .idle } ∧
      t.io = { s.io with
        srd := rest
        trace := s.io.trace ++
          [.readResp (.error e), cplEvent s .sourceIoFailure s.st.produced (some e)] } ∧
      t.ctrIncBits = s.ctrIncBits

/-- 42_reader.md rule R147, whole: `END` and `NOT_READABLE` alike set `eof`; an empty fill completes the READ, a partial
one goes to the engine. -/
def Obligations.EndResponseLatchesEof : Prop :=
  ∀ (s : State) (r : ReadResp) (rest : List ReadResp),
    Free s → s.st.fsm = .filling → 0 < s.st.req → s.io.srd = r :: rest → (r = .endOfStream ∨ r = .notReadable) →
    ∃ t, step s = .next t ∧
      t.st = { s.st with eof := true, req := 0, fsm := if s.st.fcnt = 0 then .idle else .decrypting } ∧
      t.io = { s.io with
        srd := rest
        trace := s.io.trace ++ [.readResp r] ++
          (if s.st.fcnt = 0 then [cplEvent s .ok s.st.produced none] else []) } ∧
      t.ctrIncBits = s.ctrIncBits

/-- 41_keystream_engine.md rule R127 and 42_reader.md rule R148: in `DECRYPTING` one step computes the keystream block
and advances the counter, and transfers nothing; and no other block step moves the counter, so it advances once for each
block decrypted. -/
def Obligations.CounterAdvancesOncePerBlock : Prop :=
  (∀ s : State, Free s → s.st.fsm = .decrypting →
    ∃ t, step s = .next t ∧ Transfers s t [] ∧
      t.st = { s.st with
        ks := aes128 s.st.rk s.st.ctr
        ctr := inc s.ctrIncBits.val s.st.ctr
        fsm := .appending }) ∧
  (∀ s t : State, BlockInv s → s.io.rst = false → s.st.fsm ≠ .decrypting → step s = .next t →
    t.st.ctr = s.st.ctr)

/-- 42_reader.md rule R149, with LOOP_TEST and FETCH_START of rules R142 and R143: in `APPENDING` one step emits
`fbuf[j] ⊕ ks[j]` for each byte of the block in order, counts them, empties the fill and either completes or starts the
next fetch. -/
def Obligations.AppendingEmitsPlaintext : Prop :=
  ∀ s : State, BlockInv s → Free s → s.st.fsm = .appending →
    (plainBytes s.st).length = s.st.fcnt ∧
    (∀ j, j < s.st.fcnt →
      byteAt (plainBytes s.st) j = byteAt s.st.fbuf.toList j ^^^ byteAt s.st.ks.toList j) ∧
    ∃ t, step s = .next t ∧ t.st.produced.toNat = s.st.produced.toNat + s.st.fcnt ∧
      (if s.st.count.toNat ≤ s.st.produced.toNat + s.st.fcnt ∨ s.st.eof = true then
        t.st = { s.st with produced := t.st.produced, fcnt := 0, fsm := .idle } ∧
          Transfers s t ((plainBytes s.st).map .out ++ [cplEvent s .ok t.st.produced none])
      else
        t.st = { s.st with produced := t.st.produced, fcnt := 0, fsm := .filling } ∧
          Transfers s t ((plainBytes s.st).map .out))

/-- 42_reader.md rules R146 and R151, 10_state.md rule R29: what a READ that has started reports when a step completes
it: VALUE is the number of bytes emitted on OUT since the READ was accepted, whole blocks but for a last one at end of
stream. -/
def Obligations.CompletedReadReportsProduced : Prop :=
  ∀ s t : State, BlockInv s → ValueInv s → Free s →
    (s.st.fsm = .filling ∨ s.st.fsm = .decrypting ∨ s.st.fsm = .appending) → step s = .next t → t.st.fsm = .idle →
    t.st.produced.toNat = (tally t.io.trace).outs ∧ (t.st.produced.toNat % 16 ≠ 0 → t.st.eof = true) ∧
    ∃ (es : List Event) (status : Status) (err : Option SrcErr),
      t.io.trace = s.io.trace ++ es ++ [cplEvent s status t.st.produced err] ∧
      ((status = .ok ∧ err = none ∧
          ((t.st.count.toNat ≤ t.st.produced.toNat ∧ t.st.produced.toNat < t.st.count.toNat + 16) ∨
            (t.st.produced.toNat < t.st.count.toNat ∧ t.st.eof = true))) ∨
        (status = .sourceIoFailure ∧ ∃ e, err = some e ∧ es = [.readResp (.error e)]))

/-- 42_reader.md rule R155: with `eof = 1`, a READ with a key and a count above 0 completes `OK` with VALUE 0, emits
nothing, sends no request and leaves the counter. -/
def Obligations.ExhaustedReadReturnsZero : Prop :=
  ∀ (count : BitVec 48) (s : State), BlockInv s → s.st.keyValid = true → s.st.eof = true → 0 < count.toNat →
    ∃ t, exec (.read count) s = .next t ∧ Transfers s t [cplEvent s .ok 0 none] ∧
      t.st.ctr = s.st.ctr ∧ t.st.eof = true ∧ t.st.fsm = .idle

/-- 10_state.md rules R27 and R39: `eof` stays set until reset, and the source is not asked again. -/
def Obligations.EndOfStreamIsSticky : Prop :=
  ∀ s t : State, BlockInv s → s.io.rst = false → s.st.eof = true → step s = .next t →
    t.st.eof = true ∧ ∃ es, t.io.trace = s.io.trace ++ es ∧ ∀ n, .readReq n ∉ es

/-- 42_reader.md rule R154 and 20_memory.md rule R66: however the source splits a block into `DATA` responses, the same
block is assembled, with one request for the remainder before each response. -/
def Obligations.ShortReadsAssembleBlock : Prop :=
  ∀ (s : State) (chunks : List (List Byte)) (rest : List ReadResp),
    Free s → s.st.fsm = .filling → s.st.req = 0 → s.st.fcnt = 0 →
    s.io.srd = chunks.map .data ++ rest → (∀ c ∈ chunks, c ≠ []) → chunks.flatten.length = 16 →
    ∃ t, steps (2 * chunks.length) s = .next t ∧
      t.st.fbuf.toList = chunks.flatten ∧
      t.st = { s.st with fbuf := t.st.fbuf, fcnt := 16, fsm := .decrypting } ∧
      t.io = { s.io with srd := rest, trace := s.io.trace ++ fillEvents 16 chunks } ∧
      t.ctrIncBits = s.ctrIncBits

/-- 42_reader.md rule R157: a READ whose source keeps answering completes, after at most `ceil(remaining/16)` blocks of
at most 50 moves each: a request, an answer and its taking for each of 16 bytes, the keystream block, the emission. -/
def Obligations.AnsweredReadCompletes : Prop :=
  ∀ (src : State → ReadResp) (s : State), (∀ u, readContract u.st.req (src u) = true) →
    BlockInv s → Free s → s.st.fsm = .filling → s.io.srd = [] →
    ∃ k, k ≤ 50 * ((s.st.count.toNat - s.st.produced.toNat + 15) / 16) ∧ (drive src k s).st.fsm = .idle

/-- 10_state.md rule R40: running INIT at key load rather than at the first READ changes nothing. A READ with a count
above 0 leaves the same state either way; from a state with a key and no INIT yet, every move of the block, the host or the
source outside reset is answered after an early INIT as without it, up to that INIT, which a READ that runs INIT makes the
same again; and a reset leaves the same ports and the same record but for the fields that 70_reset_and_hazards.md rule R200
does not specify. INIT touches no port, so the transfers are the same throughout. -/
def Obligations.EarlyInitIsUnobservable : Prop :=
  (∀ (count : BitVec 48) (s : State), s.st.keyValid = true → s.st.init = false → 0 < count.toNat →
    exec (.read count) s.initCipher = exec (.read count) s) ∧
  (∀ (m : Move) (s t : State), BlockInv s → s.st.keyValid = true → s.st.init = false →
    (m = .block → s.io.rst = false) → move m s = .next t →
    move m s.initCipher = .next (if t.st.keyValid = true ∧ t.st.init = false then t.initCipher else t)) ∧
  (∀ s t : State, s.io.rst = true → step s = .next t →
    ∃ t', step s.initCipher = .next t' ∧ t'.io = t.io ∧ t'.ctrIncBits = t.ctrIncBits ∧
      t'.st = { t.st with
        key := t'.st.key, rk := t'.st.rk, fbuf := t'.st.fbuf, ks := t'.st.ks, cmd := t'.st.cmd }) ∧
  (∀ s : State, s.initCipher.io = s.io)

/-- 10_state.md rules R21 to R23 and R25, 70_reset_and_hazards.md rule R201: until reset a loaded key, the cipher's
initialisation and its round keys stay. -/
def Obligations.KeyIsImmutableUntilReset : Prop :=
  ∀ s t : State, s.io.rst = false → step s = .next t →
    (s.st.keyValid = true → t.st.keyValid = true ∧ t.st.key = s.st.key) ∧
    (s.st.init = true → t.st.init = true ∧ t.st.rk = s.st.rk)

/-- 60_exceptions.md rule R195 and 10_state.md rule R35: the key, the round keys, the counter and the keystream block
reach the ports only through the plaintext emitted in `APPENDING`. Of two states that differ in them alone, the steps leave
records that differ in them alone, so that no other field carries them to a later step; the transfers are the same, but
for the plaintext of a block being appended, which depends on the keystream block and on none of the others. -/
def Obligations.KeyMaterialNeverLeaves : Prop :=
  ∀ (s t : State) (key : Bytes16) (rk : RoundKeys) (ctr ks : Bytes16), step s = .next t →
    ∃ t', step { s with st := { s.st with key := key, rk := rk, ctr := ctr, ks := ks } } = .next t' ∧
      t'.st = { t.st with key := t'.st.key, rk := t'.st.rk, ctr := t'.st.ctr, ks := t'.st.ks } ∧
      t'.ctrIncBits = t.ctrIncBits ∧
      (s.st.fsm ≠ .appending ∨ ¬ Free s → t'.io = t.io) ∧
      (s.st.fsm = .appending → Free s → ∃ es,
        t.io = { s.io with trace := s.io.trace ++ (plainBytes s.st).map .out ++ es } ∧
        t'.io = { s.io with trace := s.io.trace ++ (plainBytes { s.st with ks := ks }).map .out ++ es } ∧
        ∀ x, .out x ∉ es)

/-- 70_reset_and_hazards.md rules R200, R202 and R203: reset has priority over everything; it sets every specified field,
completes nothing, emits nothing, withdraws what is outstanding on SRD and SCTL and drops a payload partly received with
its header. That every other offer on CMD and PAY stays as it is, that a delay ends and that the record is kept and marked
is the model's choice (DESIGN CHOICE, log entry 6). -/
def Obligations.ResetHasPriority : Prop :=
  ∀ s : State, s.io.rst = true → ∃ t, step s = .next t ∧
    t.st.fsm = .idle ∧ t.st.keyValid = false ∧ t.st.init = false ∧ be16 t.st.ctr = 0 ∧ t.st.eof = false ∧
    t.st.fcnt = 0 ∧ t.st.count = 0 ∧ t.st.produced = 0 ∧ t.st.req = 0 ∧
    t.io.rst = false ∧ t.io.stalled = false ∧ t.io.srd = [] ∧ t.io.sctl = [] ∧ t.io.trace = s.io.trace ++ [.reset] ∧
    t.ctrIncBits = s.ctrIncBits ∧
    (∀ h rest, s.io.cmd = h :: rest → s.st.fsm = .idle → s.io.pay.length < (hdrPlen h).toNat →
      t.io.cmd = rest ∧ t.io.pay = []) ∧
    ((s.st.fsm ≠ .idle ∨ s.io.cmd = [] ∨ ∃ h rest, s.io.cmd = h :: rest ∧ (hdrPlen h).toNat ≤ s.io.pay.length) →
      t.io.cmd = s.io.cmd ∧ t.io.pay = s.io.pay)

/-- 70_reset_and_hazards.md rule R200: the state after reset, in every field the rule specifies. -/
def Obligations.ResetStateIsSpecified : Prop :=
  State.reset.st.fsm = .idle ∧ State.reset.st.keyValid = false ∧ State.reset.st.init = false ∧
    be16 State.reset.st.ctr = 0 ∧ State.reset.st.eof = false ∧ State.reset.st.fcnt = 0 ∧
    State.reset.st.count = 0 ∧ State.reset.st.produced = 0 ∧ State.reset.st.req = 0

/-- Decoding the encoding of a well-formed command gives it back, with every operand at every value its field admits
(30_encoding.md rules R80, R83 and R84). -/
def Obligations.DecodeInvertsEncode : Prop :=
  ∀ i : Instr, i.WellFormed → decode (encode i).1 (encode i).2 = .ok i

/-- A header and payload that decode to a command are its encoding: no bit of a legal header is dropped, and each word
has one meaning (30_encoding.md rules R85 and R87). -/
def Obligations.EncodeInvertsDecode : Prop :=
  ∀ (h : Header) (pay : List Byte) (i : Instr), pay.length = (hdrPlen h).toNat → decode h pay = .ok i →
    i.WellFormed ∧ encode i = (h, pay)

/-- 30_encoding.md rules R84 to R86: the decoder accepts exactly the headers that match a row of the opcode table, and no
header matches two rows. -/
def Obligations.DecodesExactlyTheOpcodeTable : Prop :=
  (∀ (h : Header) (pay : List Byte), (∃ i, decode h pay = .ok i) ↔ legalHeader h = true) ∧
  (∀ (h : Header) (m n : Nat) (hm : m < opcodeRows.length) (hn : n < opcodeRows.length),
    matchesRow h opcodeRows[m] = true → matchesRow h opcodeRows[n] = true → m = n)

/-- 30_encoding.md rule R91: the worked encodings decode to their commands, and READ with `ARG[48] = 1` is illegal. -/
def Obligations.WorkedEncodingsDecode : Prop :=
  decode 0x10000000000000000000000000000005 [] = .ok (.read 5) ∧
  decode 0x33000000000000000000000000000064 [] = .ok (.setlen 100) ∧
  decode 0x21010000000000000000000000000010 [] = .ok (.seek 1 0 16 []) ∧
  (∀ pay, decode 0x01000010000000000000000000000000 pay = .ok (.ldkey pay)) ∧
  (∀ pay, decode 0x02000020000000000000000000000000 pay = .ok (.ldkeyhex pay)) ∧
  decode 0x10000000000000000001000000000000 [] = .error (.fixedField 0x10) ∧
  completionWord .ok 0x10 5 = 0x00100000000000000000000000000005 ∧
  completionWord .illegalCommand 0x10 0 = 0x06100000000000000000000000000000

/-- 30_encoding.md rule R90: each line of the assembly syntax stands for its command, with the fields it does not name
zero. -/
def Obligations.AssembledLinesDecode : Prop :=
  ∀ (bytes : List Byte) (count : BitVec 48) (v : Word64) (origin : BitVec 8), bytes.length < 65536 →
    ∀ line i, (line, i) ∈
      [(AsmLine.ldkey bytes, Instr.ldkey bytes), (.ldkeyhex bytes, .ldkeyhex bytes), (.read count, .read count),
       (.close, .close), (.write bytes, .write 0 0 0 bytes), (.seek v origin, .seek origin 0 v []),
       (.posset v, .posset 0 0 v []), (.length, .length), (.posget, .posget), (.flush, .flush),
       (.setlen v, .setlen v)] →
    decode (assemble line).1 (assemble line).2 = .ok i ∧ encode i = assemble line

/-- 30_encoding.md rules R88 and R89: the fields of a completion word, and the seven status codes. -/
def Obligations.CompletionWordFields : Prop :=
  (∀ (status : Status) (ope : BitVec 8) (value : Word64),
    cplStatus (completionWord status ope value) = statusCode status ∧ cplOpe (completionWord status ope value) = ope ∧
    cplZero (completionWord status ope value) = 0 ∧ cplValue (completionWord status ope value) = value) ∧
  (statusCode .ok = 0 ∧ statusCode .invalidKeyFormat = 1 ∧ statusCode .unsupportedOperation = 2 ∧
    statusCode .sourceIoFailure = 3 ∧ statusCode .invalidKeyLength = 4 ∧ statusCode .noKey = 5 ∧
    statusCode .illegalCommand = 6)

/-- 41_keystream_engine.md rule R126: the upper bits unchanged, the low `m` bits plus one with wrap, for every
width a counter of 128 bits has. -/
def Obligations.CounterIncrement : Prop :=
  ∀ (m : Nat) (c : Bytes16), m ≤ 128 →
    be16 (inc m c) / 2 ^ m = be16 c / 2 ^ m ∧ be16 (inc m c) % 2 ^ m = (be16 c + 1) % 2 ^ m

/-- 20_memory.md rule R62 and 41_keystream_engine.md rule R130: from the zero IV the `k`-th counter block is `BE_16(k)`
until the wrap, and the lower `m` bits repeat after `2^m` blocks. -/
def Obligations.CounterBlocksFromZero : Prop :=
  ∀ (m k : Nat), m ≤ 128 → (inc m)^[k] (ofBE16 0) = ofBE16 (k % 2 ^ m)

/-- 40_aes128.md rules R102 and R107: multiplication is the sum of `xtime^i(a)` over the bits set in `b`, and
`Rcon[j] = xtime^(j-1)(0x01)`. -/
def Obligations.FieldArithmetic : Prop :=
  (∀ a b : Byte, gmul a b =
    (List.range 8).foldl (fun acc i => acc ^^^ (if b.getLsbD i then xtime^[i] a else 0)) 0) ∧
  (∀ b : Byte, (xtime b).toNat = Nat.xor (b.toNat * 2 % 256) (if 128 ≤ b.toNat then 0x1b else 0)) ∧
  (∀ j, 1 ≤ j → j ≤ 10 → rcon j = xtime^[j - 1] 0x01)

/-- 40_aes128.md rule R103: the S-box table is the affine map of the multiplicative inverse. -/
def Obligations.SboxIsAffineInverse : Prop :=
  ∀ b : Byte, ∃ x : Byte, (if b = 0 then x = 0 else gmul b x = 1) ∧
    ∀ i, i < 8 → (sbox b).getLsbD i =
      (x.getLsbD i ^^ x.getLsbD ((i + 4) % 8) ^^ x.getLsbD ((i + 5) % 8) ^^ x.getLsbD ((i + 6) % 8) ^^
        x.getLsbD ((i + 7) % 8) ^^ (0x63#8).getLsbD i)

/-- 40_aes128.md rules R104, R105, R108 and R109, cell by cell. -/
def Obligations.CipherLayersByCell : Prop :=
  ∀ (s k : Bytes16) (r c : Nat), r < 4 → c < 4 →
    cell (subBytes s) r c = sbox (cell s r c) ∧
    cell (shiftRows s) r c = cell s r ((c + r) % 4) ∧
    cell (addRoundKey s k) r c = cell s r c ^^^ cell k r c ∧
    cell (mixColumns s) 0 c = gmul 2 (cell s 0 c) ^^^ gmul 3 (cell s 1 c) ^^^ cell s 2 c ^^^ cell s 3 c ∧
    cell (mixColumns s) 1 c = cell s 0 c ^^^ gmul 2 (cell s 1 c) ^^^ gmul 3 (cell s 2 c) ^^^ cell s 3 c ∧
    cell (mixColumns s) 2 c = cell s 0 c ^^^ cell s 1 c ^^^ gmul 2 (cell s 2 c) ^^^ gmul 3 (cell s 3 c) ∧
    cell (mixColumns s) 3 c = gmul 3 (cell s 0 c) ^^^ cell s 1 c ^^^ cell s 2 c ^^^ gmul 2 (cell s 3 c)

/-- 40_aes128.md rule R106: the operations on words, the recurrence of the key schedule, and the round keys as its
words. -/
def Obligations.KeyExpansionRecurrence : Prop :=
  (∀ (a b : KeyWord) (n j : Nat), j < 4 →
    byteAt (rotWord a).toList j = byteAt a.toList ((j + 1) % 4) ∧
    byteAt (subWord a).toList j = sbox (byteAt a.toList j) ∧
    byteAt (xorWord a b).toList j = byteAt a.toList j ^^^ byteAt b.toList j ∧
    byteAt (rconWord n).toList j = if j = 0 then rcon n else 0) ∧
  ∀ k : Bytes16, ∃ w : Nat → KeyWord,
    (∀ i j, i < 4 → j < 4 → byteAt (w i).toList j = byteAt k.toList (4 * i + j)) ∧
    (∀ i, 4 ≤ i → i < 44 → w i = xorWord (w (i - 4))
      (if i % 4 = 0 then xorWord (subWord (rotWord (w (i - 1)))) (rconWord (i / 4)) else w (i - 1))) ∧
    (∀ r c j, r < 11 → c < 4 → j < 4 →
      byteAt (roundKey (keyExpansion k) r).toList (4 * c + j) = byteAt (w (4 * r + c)).toList j) ∧
    roundKey (keyExpansion k) 0 = k

/-- 40_aes128.md rule R111: the known answers of FIPS-197 Appendix C.1. -/
def Obligations.AesKnownAnswer : Prop :=
  be16 (roundKey (keyExpansion (ofBE16 0x000102030405060708090a0b0c0d0e0f)) 1) = 0xd6aa74fdd2af72fadaa678f1d6ab76fe ∧
  be16 (roundKey (keyExpansion (ofBE16 0x000102030405060708090a0b0c0d0e0f)) 10) = 0x13111d7fe3944a17f307a78b4d2b30c5 ∧
  be16 (aes128 (keyExpansion (ofBE16 0x000102030405060708090a0b0c0d0e0f))
    (ofBE16 0x00112233445566778899aabbccddeeff)) = 0x69c4e0d86a7b0430d8cdb78070b4c55a

/-- The invariant of the block's record is kept by every step (10_state.md rules R21 to R38, 42_reader.md rules R142 to
R152). -/
def Obligations.StepKeepsBlockInv : Prop :=
  ∀ s t : State, BlockInv s → step s = .next t → BlockInv t

/-- 20_memory.md rules R59 and R60, 10_state.md rules R36 and R37, 41_keystream_engine.md rule R129: every step keeps the
invariant of the streams: each byte emitted since reset is its ciphertext byte XORed with its keystream byte, in stream
order, and the counter is the number of keystream blocks computed. -/
def Obligations.StepKeepsStreamInv : Prop :=
  ∀ s t : State, BlockInv s → StreamInv s → step s = .next t → StreamInv t

/-- 20_memory.md rules R57, R58 and R70 to R72, 30_encoding.md rule R88: every step keeps the port protocol. -/
def Obligations.StepKeepsProtocolInv : Prop :=
  ∀ s t : State, BlockInv s → ProtocolInv s → step s = .next t → ProtocolInv t

/-- Every move of the block, the host and the source, and reset, keeps the invariant of the system (20_memory.md rules
R50, R54, R56 and R57). -/
def Obligations.MovesKeepSystemInv : Prop :=
  ∀ (m : Move) (s t : State), SystemInv s → move m s = .next t → SystemInv t

/-- The state after reset has the invariant of the system. -/
def Obligations.ResetHasSystemInv : Prop := SystemInv State.reset

/-- 20_memory.md rule R54, 60_exceptions.md rule R180: in a system whose source keeps its contract no step of the machine
is refused. -/
def Obligations.BlockIsNeverRefused : Prop :=
  ∀ s : State, SourceInv s → Answered (step s)

/-- 20_memory.md rule R52: no move loses, duplicates or reorders a transfer. Only the block's step transfers, and what it
takes leaves its port once, from the front: the headers, payload bytes and answers taken, followed by what the port still
holds, are what it held before, followed by what the move puts there. A reset takes nothing: it may withdraw (log entry
6). The ports as lists and the record of transfers are the model's own fields (log entries 7 and 9). -/
def Obligations.TransfersAreNeverLost : Prop :=
  ∀ (m : Move) (s t : State), move m s = .next t → ∃ es, t.io.trace = s.io.trace ++ es ∧
    (m ≠ .block → es = []) ∧
    (if m = .block ∧ s.io.rst = true then
      es = [.reset] ∧ t.io.cmd <:+ s.io.cmd ∧ t.io.pay <:+ s.io.pay
    else
      takenHeaders es ++ t.io.cmd = s.io.cmd ++ offeredHeaders m ∧
      takenPayload es ++ t.io.pay = s.io.pay ++ offeredPayload m ∧
      takenReads es ++ t.io.srd = s.io.srd ++ offeredReads m ∧
      takenCtls es ++ t.io.sctl = s.io.sctl ++ offeredCtls m)

/-- 42_reader.md rules R153 and R154: of two runs of the system, whatever the host sends and however the source cuts its
answers, that end with the same key and width, with no upstream error since the last reset, and where the ciphertext
delivered in the one is the beginning of that in the other, the outputs are one the beginning of the other; and between
commands each run has emitted as many bytes as were delivered to it. -/
def Obligations.ChunkingDoesNotAffectOutput : Prop :=
  ∀ (ms₁ ms₂ : List Move) (s₁ s₂ t₁ t₂ : State), SystemInv s₁ → SystemInv s₂ →
    moves ms₁ s₁ = .next t₁ → moves ms₂ s₂ = .next t₂ →
    t₁.st.key = t₂.st.key → t₁.ctrIncBits = t₂.ctrIncBits →
    noReadError t₁.io.trace = true → noReadError t₂.io.trace = true →
    delivered t₁.io.trace <+: delivered t₂.io.trace →
    (emitted t₁.io.trace <+: emitted t₂.io.trace ∨ emitted t₂.io.trace <+: emitted t₁.io.trace) ∧
    (t₁.st.fsm = .idle → (emitted t₁.io.trace).length = (delivered t₁.io.trace).length) ∧
    (t₂.st.fsm = .idle → (emitted t₂.io.trace).length = (delivered t₂.io.trace).length)

/-- 10_state.md rule R29, 42_reader.md rules R146 and R151: every step keeps the invariant of VALUE: `produced` counts the
bytes emitted since the READ was accepted, and every completed READ has reported that count. -/
def Obligations.StepKeepsValueInv : Prop :=
  ∀ s t : State, BlockInv s → ValueInv s → step s = .next t → ValueInv t
end

