-- ==== Sys2Proof/Laws/Bytes.lean ====
section
/-! SUPPORT. Byte sequences: indexing, the big-endian number of 16 bytes and back, and the counter increment. -/

namespace Sys2Proof.Machine

@[simp] theorem byteAt_nil (j : Nat) : byteAt [] j = 0 := rfl

theorem byteAt_eq_getElem {b : List Byte} {j : Nat} (h : j < b.length) : byteAt b j = b[j] := by
  simp [byteAt, h]

theorem byteAt_append_left {a b : List Byte} {j : Nat} (h : j < a.length) : byteAt (a ++ b) j = byteAt a j := by
  simp [byteAt, List.getElem?_append, h]

theorem byteAt_append_right {a b : List Byte} {j : Nat} (h : a.length ≤ j) :
    byteAt (a ++ b) j = byteAt b (j - a.length) := by
  simp [byteAt, List.getElem?_append, Nat.not_lt.mpr h]

@[simp] theorem getElem_xor16 (a b : Bytes16) (j : Nat) (h : j < 16) : (xor16 a b)[j] = a[j] ^^^ b[j] := by
  simp [xor16]

@[simp] theorem getElem_first16 (b : List Byte) (j : Nat) (h : j < 16) : (first16 b)[j] = byteAt b j := by
  simp [first16]

theorem first16_toList {b : List Byte} (h : b.length = 16) : (first16 b).toList = b := by
  apply List.ext_getElem
  · simp [h]
  · intro j h₁ h₂
    simp [byteAt_eq_getElem h₂]

@[simp] theorem getElem_ofCells (f : Nat → Nat → Byte) (j : Nat) (h : j < 16) :
    (ofCells f)[j] = f (j % 4) (j / 4) := by
  simp [ofCells]

theorem be_append (a b : List Byte) : be (a ++ b) = be a * 256 ^ b.length + be b := by
  induction a with
  | nil => simp [be]
  | cons x xs ih => simp [be, ih, pow_add, add_mul, Nat.mul_assoc, Nat.add_assoc]

theorem be_lt (b : List Byte) : be b < 256 ^ b.length := by
  induction b with
  | nil => simp [be]
  | cons x xs ih =>
    have hx : x.toNat ≤ 255 := by have := x.isLt; omega
    calc be (x :: xs) = x.toNat * 256 ^ xs.length + be xs := rfl
      _ < x.toNat * 256 ^ xs.length + 256 ^ xs.length := by omega
      _ = (x.toNat + 1) * 256 ^ xs.length := by ring
      _ ≤ 256 * 256 ^ xs.length := Nat.mul_le_mul_right _ (by omega)
      _ = 256 ^ (x :: xs).length := by rw [List.length_cons]; ring

theorem be16_lt (b : Bytes16) : be16 b < 2 ^ 128 := by
  have h := be_lt b.toList
  have e : (256 : Nat) ^ 16 = 2 ^ 128 := by norm_num
  simpa [be16, e] using h

/-- The big-endian number of the bytes `v / 256^(n-1-j)`. -/
theorem be_digits (v n : Nat) :
    be ((List.range n).map fun j => BitVec.ofNat 8 (v / 256 ^ (n - 1 - j))) = v % 256 ^ n := by
  induction n with
  | zero => simp [be, Nat.mod_one]
  | succ n ih =>
    rw [List.range_succ_eq_map, List.map_cons, List.map_map]
    have hmap : ((List.range n).map ((fun j => BitVec.ofNat 8 (v / 256 ^ (n + 1 - 1 - j))) ∘ Nat.succ)) =
        (List.range n).map fun j => BitVec.ofNat 8 (v / 256 ^ (n - 1 - j)) := by
      apply List.map_congr_left
      intro j hj
      have e : n + 1 - 1 - Nat.succ j = n - 1 - j := by omega
      rw [Function.comp_apply, e]
    rw [hmap, be, ih]
    simp only [List.length_map, List.length_range, BitVec.toNat_ofNat]
    have e : v % 256 ^ (n + 1) = v % 256 ^ n + 256 ^ n * (v / 256 ^ n % 256) := by
      rw [Nat.pow_succ, Nat.mod_mul]
    rw [show n + 1 - 1 - 0 = n by omega, e, show (2 : Nat) ^ 8 = 256 by norm_num]
    ring

theorem ofBE16_toList (v : Nat) :
    (ofBE16 v).toList = (List.range 16).map fun j => BitVec.ofNat 8 (v / 256 ^ (16 - 1 - j)) := by
  apply List.ext_getElem
  · simp
  · intro j h₁ h₂
    simp [ofBE16]

theorem be16_ofBE16 (v : Nat) : be16 (ofBE16 v) = v % 2 ^ 128 := by
  rw [be16, ofBE16_toList, be_digits, show (256 : Nat) ^ 16 = 2 ^ 128 by norm_num]

theorem be_inj : ∀ {a b : List Byte}, a.length = b.length → be a = be b → a = b
  | [], [], _, _ => rfl
  | x :: xs, y :: ys, hl, h => by
    have hl' : xs.length = ys.length := by simpa using hl
    have hx := be_lt xs
    have hy := be_lt ys
    simp only [be, hl'] at h hx
    have hpos : 0 < 256 ^ ys.length := by positivity
    have h1 : x.toNat = y.toNat := by
      have e := congrArg (· / 256 ^ ys.length) h
      simpa only [Nat.add_comm (_ * _), Nat.add_mul_div_right _ _ hpos, Nat.div_eq_of_lt hx, Nat.div_eq_of_lt hy,
        Nat.zero_add] using e
    have h2 : be xs = be ys := by rw [h1] at h; omega
    rw [BitVec.eq_of_toNat_eq h1, be_inj hl' h2]

theorem ofBE16_be16 (b : Bytes16) : ofBE16 (be16 b) = b := by
  have h : be16 (ofBE16 (be16 b)) = be16 b := by rw [be16_ofBE16, Nat.mod_eq_of_lt (be16_lt b)]
  have := be_inj (by simp) h
  exact Vector.toList_inj.mp this

/-- The counter below `2^m` advances by one, modulo `2^m` (41_keystream_engine.md rule R126). -/
theorem be16_inc_of_lt {m : Nat} {c : Bytes16} (hm : m ≤ 128) (h : be16 c < 2 ^ m) :
    be16 (inc m c) = (be16 c + 1) % 2 ^ m := by
  have hpow : 2 ^ m ≤ 2 ^ 128 := Nat.pow_le_pow_right (by norm_num) hm
  have hlt : (be16 c + 1) % 2 ^ m < 2 ^ m := Nat.mod_lt _ (by positivity)
  rw [inc, be16_ofBE16, Nat.mod_eq_of_lt h, Nat.sub_self, Nat.zero_add, Nat.mod_eq_of_lt (by omega)]

end Sys2Proof.Machine
end

