-- ==== Sys2Proof/Laws/Decode.lean ====
section
/-! SUPPORT. A header is its fields and its fields are the header (30_encoding.md rule R80). -/

namespace Sys2Proof

section
variable (op x : BitVec 8) (plen : BitVec 16) (rsv : BitVec 32) (arg : BitVec 64)

@[simp] theorem hdrOp_mkHeader : hdrOp (mkHeader op x plen rsv arg) = op := by
  apply BitVec.eq_of_getLsbD_eq
  intro i hi
  simp only [hdrOp, mkHeader, BitVec.getLsbD_extractLsb', BitVec.getLsbD_append]
  simp (disch := omega) [hi, show ¬ 120 + i < 64 by omega, show ¬ 120 + i - 64 < 32 by omega, show ¬ 120 + i - 64 - 32 < 16 by omega, show ¬ 120 + i - 64 - 32 - 16 < 8 by omega]
  congr 1; omega

@[simp] theorem hdrX_mkHeader : hdrX (mkHeader op x plen rsv arg) = x := by
  apply BitVec.eq_of_getLsbD_eq
  intro i hi
  simp only [hdrX, mkHeader, BitVec.getLsbD_extractLsb', BitVec.getLsbD_append]
  simp [hi, show ¬ 112 + i < 64 by omega, show ¬ 112 + i - 64 < 32 by omega, show ¬ 112 + i - 64 - 32 < 16 by omega, show 112 + i - 64 - 32 - 16 < 8 by omega]
  congr 1; omega

@[simp] theorem hdrPlen_mkHeader : hdrPlen (mkHeader op x plen rsv arg) = plen := by
  apply BitVec.eq_of_getLsbD_eq
  intro i hi
  simp only [hdrPlen, mkHeader, BitVec.getLsbD_extractLsb', BitVec.getLsbD_append]
  simp [hi, show ¬ 96 + i < 64 by omega, show ¬ 96 + i - 64 < 32 by omega, show 96 + i - 64 - 32 < 16 by omega]
  congr 1; omega

@[simp] theorem hdrRsv_mkHeader : hdrRsv (mkHeader op x plen rsv arg) = rsv := by
  apply BitVec.eq_of_getLsbD_eq
  intro i hi
  simp only [hdrRsv, mkHeader, BitVec.getLsbD_extractLsb', BitVec.getLsbD_append]
  simp [hi, show ¬ 64 + i < 64 by omega]

@[simp] theorem hdrArg_mkHeader : hdrArg (mkHeader op x plen rsv arg) = arg := by
  apply BitVec.eq_of_getLsbD_eq
  intro i hi
  simp only [hdrArg, mkHeader, BitVec.getLsbD_extractLsb', BitVec.getLsbD_append]
  simp [hi]

end

theorem mkHeader_fields (h : Header) :
    mkHeader (hdrOp h) (hdrX h) (hdrPlen h) (hdrRsv h) (hdrArg h) = h := by
  apply BitVec.eq_of_getLsbD_eq
  intro i hi
  simp only [hdrOp, hdrX, hdrPlen, hdrRsv, hdrArg, mkHeader, BitVec.getLsbD_extractLsb', BitVec.getLsbD_append]
  split
  · simp [*]
  · split
    · rw [show 64 + (i - 64) = i by omega]; simp [*]
    · split
      · rw [show 96 + (i - 64 - 32) = i by omega]; simp [*]
      · split
        · rw [show 112 + (i - 64 - 32 - 16) = i by omega]; simp [*]
        · rw [show 120 + (i - 64 - 32 - 16 - 8) = i by omega, decide_eq_true (by omega), Bool.true_and]

@[simp] theorem hdrOp_encodeHeader (i : Instr) : hdrOp (encodeHeader i) = opcode i := by
  cases i <;> simp [encodeHeader, opcode]

theorem hdrPlen_encodeHeader {i : Instr} (h : i.WellFormed) : (hdrPlen (encodeHeader i)).toNat = i.payload.length := by
  cases i <;>
    simp_all [encodeHeader, Instr.payload, plenField, Instr.WellFormed, Nat.mod_eq_of_lt]

/-- The rows a header can decode by, each with its OP and its fixed fields (30_encoding.md rule R84). -/
inductive DecodesTo (h : Header) (pay : List Byte) : Instr → Prop where
  | ldkey (op : hdrOp h = 0x01#8) (fixed : fixedKeyLoad h = true) : DecodesTo h pay (.ldkey pay)
  | ldkeyhex (op : hdrOp h = 0x02#8) (fixed : fixedKeyLoad h = true) : DecodesTo h pay (.ldkeyhex pay)
  | read (op : hdrOp h = 0x10#8) (fixed : (fixedNoPayload h && fixedReadArg h) = true) : DecodesTo h pay (.read ((hdrArg h).extractLsb' 0 48))
  | close (op : hdrOp h = 0x11#8) (fixed : (fixedNoPayload h && hdrArg h == 0) = true) : DecodesTo h pay .close
  | write (op : hdrOp h = 0x20#8) : DecodesTo h pay (.write (hdrX h) (hdrRsv h) (hdrArg h) pay)
  | seek (op : hdrOp h = 0x21#8) : DecodesTo h pay (.seek (hdrX h) (hdrRsv h) (hdrArg h) pay)
  | posset (op : hdrOp h = 0x22#8) : DecodesTo h pay (.posset (hdrX h) (hdrRsv h) (hdrArg h) pay)
  | length (op : hdrOp h = 0x30#8) (fixed : (fixedNoPayload h && hdrArg h == 0) = true) : DecodesTo h pay .length
  | posget (op : hdrOp h = 0x31#8) (fixed : (fixedNoPayload h && hdrArg h == 0) = true) : DecodesTo h pay .posget
  | flush (op : hdrOp h = 0x32#8) (fixed : (fixedNoPayload h && hdrArg h == 0) = true) : DecodesTo h pay .flush
  | setlen (op : hdrOp h = 0x33#8) (fixed : fixedNoPayload h = true) : DecodesTo h pay (.setlen (hdrArg h))

theorem checkFixed_ok {h : Header} {holds : Bool} {i j : Instr} (e : checkFixed h holds i = .ok j) :
    holds = true ∧ i = j := by
  unfold checkFixed at e
  cases holds <;> simp_all

/-- What the decoder can answer, said once. -/
theorem decode_decodesTo {h : Header} {pay : List Byte} {i : Instr} (hd : decode h pay = .ok i) :
    DecodesTo h pay i := by
  unfold decode at hd
  by_cases op : hdrOp h = 0x01#8
  · rw [if_pos op] at hd
    obtain ⟨fixed, rfl⟩ := checkFixed_ok hd
    exact .ldkey op fixed
  rw [if_neg op] at hd
  by_cases op : hdrOp h = 0x02#8
  · rw [if_pos op] at hd
    obtain ⟨fixed, rfl⟩ := checkFixed_ok hd
    exact .ldkeyhex op fixed
  rw [if_neg op] at hd
  by_cases op : hdrOp h = 0x10#8
  · rw [if_pos op] at hd
    obtain ⟨fixed, rfl⟩ := checkFixed_ok hd
    exact .read op fixed
  rw [if_neg op] at hd
  by_cases op : hdrOp h = 0x11#8
  · rw [if_pos op] at hd
    obtain ⟨fixed, rfl⟩ := checkFixed_ok hd
    exact .close op fixed
  rw [if_neg op] at hd
  by_cases op : hdrOp h = 0x20#8
  · rw [if_pos op] at hd
    injection hd with e
    subst e
    exact .write op
  rw [if_neg op] at hd
  by_cases op : hdrOp h = 0x21#8
  · rw [if_pos op] at hd
    injection hd with e
    subst e
    exact .seek op
  rw [if_neg op] at hd
  by_cases op : hdrOp h = 0x22#8
  · rw [if_pos op] at hd
    injection hd with e
    subst e
    exact .posset op
  rw [if_neg op] at hd
  by_cases op : hdrOp h = 0x30#8
  · rw [if_pos op] at hd
    obtain ⟨fixed, rfl⟩ := checkFixed_ok hd
    exact .length op fixed
  rw [if_neg op] at hd
  by_cases op : hdrOp h = 0x31#8
  · rw [if_pos op] at hd
    obtain ⟨fixed, rfl⟩ := checkFixed_ok hd
    exact .posget op fixed
  rw [if_neg op] at hd
  by_cases op : hdrOp h = 0x32#8
  · rw [if_pos op] at hd
    obtain ⟨fixed, rfl⟩ := checkFixed_ok hd
    exact .flush op fixed
  rw [if_neg op] at hd
  by_cases op : hdrOp h = 0x33#8
  · rw [if_pos op] at hd
    obtain ⟨fixed, rfl⟩ := checkFixed_ok hd
    exact .setlen op fixed
  rw [if_neg op] at hd
  injection hd

end Sys2Proof
end

