-- ==== Sys2Proof/Laws/State.lean ====
section
/-! SUPPORT. For each named update of the machine, what it leaves in the record, the ports and the parameter: three
lemmas an update, each true by unfolding it once, so that no later proof unfolds an update. -/

namespace Sys2Proof.Machine

@[simp] theorem State.log_st (es : List Event) (s : State) : (s.log es).st = s.st := rfl
@[simp] theorem State.log_io (es : List Event) (s : State) :
    (s.log es).io = { s.io with trace := s.io.trace ++ es } := rfl
@[simp] theorem State.log_ctrIncBits (es : List Event) (s : State) : (s.log es).ctrIncBits = s.ctrIncBits := rfl

@[simp] theorem State.goto_st (f : Fsm) (s : State) : (s.goto f).st = { s.st with fsm := f } := rfl
@[simp] theorem State.goto_io (f : Fsm) (s : State) : (s.goto f).io = s.io := rfl
@[simp] theorem State.goto_ctrIncBits (f : Fsm) (s : State) : (s.goto f).ctrIncBits = s.ctrIncBits := rfl

@[simp] theorem State.complete_st (c : Status) (v : Word64) (e : Option SrcErr) (s : State) :
    (s.complete c v e).st = { s.st with fsm := .idle } := rfl
@[simp] theorem State.complete_io (c : Status) (v : Word64) (e : Option SrcErr) (s : State) :
    (s.complete c v e).io =
      { s.io with trace := s.io.trace ++ [.cpl (completionWord c (hdrOp s.st.cmd) v) e] } := rfl
@[simp] theorem State.complete_ctrIncBits (c : Status) (v : Word64) (e : Option SrcErr) (s : State) :
    (s.complete c v e).ctrIncBits = s.ctrIncBits := rfl

@[simp] theorem State.raise_st (c : Status) (s : State) : (s.raise c).st = { s.st with fsm := .idle } := rfl
@[simp] theorem State.raise_io (c : Status) (s : State) :
    (s.raise c).io = { s.io with trace := s.io.trace ++ [.cpl (completionWord c (hdrOp s.st.cmd) 0) none] } := rfl
@[simp] theorem State.raise_ctrIncBits (c : Status) (s : State) : (s.raise c).ctrIncBits = s.ctrIncBits := rfl

@[simp] theorem State.accept_st (h : Header) (s : State) : (s.accept h).st = { s.st with cmd := h } := rfl
@[simp] theorem State.accept_io (h : Header) (s : State) :
    (s.accept h).io =
      { s.io with
        cmd := s.io.cmd.tail
        pay := s.io.pay.drop (hdrPlen h).toNat
        trace := s.io.trace ++ [.accept h (s.io.pay.take (hdrPlen h).toNat)] } := rfl
@[simp] theorem State.accept_ctrIncBits (h : Header) (s : State) : (s.accept h).ctrIncBits = s.ctrIncBits := rfl

@[simp] theorem State.loadKey_st (k : Bytes16) (s : State) :
    (s.loadKey k).st = { s.st with key := k, keyValid := true } := rfl
@[simp] theorem State.loadKey_io (k : Bytes16) (s : State) : (s.loadKey k).io = s.io := rfl
@[simp] theorem State.loadKey_ctrIncBits (k : Bytes16) (s : State) : (s.loadKey k).ctrIncBits = s.ctrIncBits := rfl

@[simp] theorem State.initCipher_st (s : State) :
    s.initCipher.st = { s.st with rk := keyExpansion s.st.key, ctr := ofBE16 0, init := true } := rfl
@[simp] theorem State.initCipher_io (s : State) : s.initCipher.io = s.io := rfl
@[simp] theorem State.initCipher_ctrIncBits (s : State) : s.initCipher.ctrIncBits = s.ctrIncBits := rfl

@[simp] theorem State.ksBlock_st (s : State) :
    s.ksBlock.st = { s.st with ks := aes128 s.st.rk s.st.ctr, ctr := inc s.ctrIncBits.val s.st.ctr } := rfl
@[simp] theorem State.ksBlock_io (s : State) : s.ksBlock.io = s.io := rfl
@[simp] theorem State.ksBlock_ctrIncBits (s : State) : s.ksBlock.ctrIncBits = s.ctrIncBits := rfl

@[simp] theorem State.startRead_st (n : BitVec 48) (s : State) :
    (s.startRead n).st = { s.st with count := n, produced := 0 } := rfl
@[simp] theorem State.startRead_io (n : BitVec 48) (s : State) : (s.startRead n).io = s.io := rfl
@[simp] theorem State.startRead_ctrIncBits (n : BitVec 48) (s : State) :
    (s.startRead n).ctrIncBits = s.ctrIncBits := rfl

@[simp] theorem State.clearFill_st (s : State) : s.clearFill.st = { s.st with fcnt := 0 } := rfl
@[simp] theorem State.clearFill_io (s : State) : s.clearFill.io = s.io := rfl
@[simp] theorem State.clearFill_ctrIncBits (s : State) : s.clearFill.ctrIncBits = s.ctrIncBits := rfl

@[simp] theorem State.issueRead_st (s : State) : s.issueRead.st = { s.st with req := 16 - s.st.fcnt } := rfl
@[simp] theorem State.issueRead_io (s : State) :
    s.issueRead.io = { s.io with trace := s.io.trace ++ [.readReq (16 - s.st.fcnt)] } := rfl
@[simp] theorem State.issueRead_ctrIncBits (s : State) : s.issueRead.ctrIncBits = s.ctrIncBits := rfl

@[simp] theorem State.takeReadResp_st (r : ReadResp) (s : State) :
    (s.takeReadResp r).st = { s.st with req := 0 } := rfl
@[simp] theorem State.takeReadResp_io (r : ReadResp) (s : State) :
    (s.takeReadResp r).io = { s.io with srd := s.io.srd.tail, trace := s.io.trace ++ [.readResp r] } := rfl
@[simp] theorem State.takeReadResp_ctrIncBits (r : ReadResp) (s : State) :
    (s.takeReadResp r).ctrIncBits = s.ctrIncBits := rfl

@[simp] theorem State.appendFill_st (b : List Byte) (s : State) :
    (s.appendFill b).st =
      { s.st with fbuf := writeFill s.st.fbuf s.st.fcnt b, fcnt := s.st.fcnt + b.length } := rfl
@[simp] theorem State.appendFill_io (b : List Byte) (s : State) : (s.appendFill b).io = s.io := rfl
@[simp] theorem State.appendFill_ctrIncBits (b : List Byte) (s : State) :
    (s.appendFill b).ctrIncBits = s.ctrIncBits := rfl

@[simp] theorem State.markEof_st (s : State) : s.markEof.st = { s.st with eof := true } := rfl
@[simp] theorem State.markEof_io (s : State) : s.markEof.io = s.io := rfl
@[simp] theorem State.markEof_ctrIncBits (s : State) : s.markEof.ctrIncBits = s.ctrIncBits := rfl

@[simp] theorem State.emitBlock_st (s : State) :
    s.emitBlock.st = { s.st with produced := s.st.produced + BitVec.ofNat 64 s.st.fcnt, fcnt := 0 } := rfl
@[simp] theorem State.emitBlock_io (s : State) :
    s.emitBlock.io = { s.io with trace := s.io.trace ++ (plainBytes s.st).map .out } := rfl
@[simp] theorem State.emitBlock_ctrIncBits (s : State) : s.emitBlock.ctrIncBits = s.ctrIncBits := rfl

@[simp] theorem State.pass_st (op : CtlOp) (a : Word64) (s : State) :
    (s.pass op a).st = { s.st with fsm := .ctlWait } := rfl
@[simp] theorem State.pass_io (op : CtlOp) (a : Word64) (s : State) :
    (s.pass op a).io = { s.io with trace := s.io.trace ++ [.ctlReq op a] } := rfl
@[simp] theorem State.pass_ctrIncBits (op : CtlOp) (a : Word64) (s : State) :
    (s.pass op a).ctrIncBits = s.ctrIncBits := rfl

@[simp] theorem State.takeCtlResp_st (r : CtlResp) (s : State) : (s.takeCtlResp r).st = s.st := rfl
@[simp] theorem State.takeCtlResp_io (r : CtlResp) (s : State) :
    (s.takeCtlResp r).io = { s.io with sctl := s.io.sctl.tail, trace := s.io.trace ++ [.ctlResp r] } := rfl
@[simp] theorem State.takeCtlResp_ctrIncBits (r : CtlResp) (s : State) :
    (s.takeCtlResp r).ctrIncBits = s.ctrIncBits := rfl

@[simp] theorem State.assertReset_st (s : State) : s.assertReset.st = BlockState.reset := rfl
@[simp] theorem State.assertReset_rst (s : State) : s.assertReset.io.rst = false := rfl
@[simp] theorem State.assertReset_stalled (s : State) : s.assertReset.io.stalled = false := rfl
@[simp] theorem State.assertReset_srd (s : State) : s.assertReset.io.srd = [] := rfl
@[simp] theorem State.assertReset_sctl (s : State) : s.assertReset.io.sctl = [] := rfl
@[simp] theorem State.assertReset_trace (s : State) :
    s.assertReset.io.trace = s.io.trace ++ [.reset] := rfl
@[simp] theorem State.assertReset_ctrIncBits (s : State) : s.assertReset.ctrIncBits = s.ctrIncBits := rfl

end Sys2Proof.Machine
end

