-- ==== Sys2Proof/Laws/Ops.lean ====
section
/-! SUPPORT. What each shared operation can do, said once: INIT where needed, LOOP_TEST, the responses, the fill buffer
and the plaintext of a block. -/

namespace Sys2Proof.Machine

@[simp] theorem State.ensureInit_io (s : State) : s.ensureInit.io = s.io := by
  unfold State.ensureInit; split <;> rfl

@[simp] theorem State.ensureInit_ctrIncBits (s : State) : s.ensureInit.ctrIncBits = s.ctrIncBits := by
  unfold State.ensureInit; split <;> rfl

theorem State.ensureInit_st (s : State) :
    s.ensureInit.st =
      { s.st with
        init := true
        rk := if s.st.init then s.st.rk else keyExpansion s.st.key
        ctr := if s.st.init then s.st.ctr else ofBE16 0 } := by
  obtain ⟨⟨_, _, _, init, _, _, _, _, _, _, _, _, _, _⟩, _, _⟩ := s
  cases init <;> rfl

theorem State.ensureInit_of_init {s : State} (h : s.st.init = true) : s.ensureInit = s := by
  simp [State.ensureInit, h]

theorem State.ensureInit_of_not_init {s : State} (h : s.st.init = false) : s.ensureInit = s.initCipher := by
  simp [State.ensureInit, h]

/-- What LOOP_TEST can do (42_reader.md rules R142 and R143). -/
inductive LoopTo (s : State) : State → Prop where
  | done (h : s.st.count.toNat ≤ s.st.produced.toNat) : LoopTo s (s.complete .ok s.st.produced none)
  | ended (h : s.st.produced.toNat < s.st.count.toNat) (he : s.st.eof = true) :
      LoopTo s (s.ensureInit.clearFill.complete .ok s.st.produced none)
  | fetch (h : s.st.produced.toNat < s.st.count.toNat) (he : s.st.eof = false) :
      LoopTo s (s.ensureInit.clearFill.goto .filling)

theorem State.loopTest_loopTo (s : State) : LoopTo s s.loopTest := by
  unfold State.loopTest
  split
  · exact .done ‹_›
  · unfold State.fetchStart
    split
    · rename_i h he
      have hp : s.ensureInit.clearFill.st.produced = s.st.produced := by simp [State.ensureInit_st]
      rw [hp]
      exact .ended (by omega) (by simpa [State.ensureInit_st] using he)
    · rename_i h he
      exact .fetch (by omega) (by simpa [State.ensureInit_st] using he)

/-- What a read response can do (42_reader.md rules R145 to R147). -/
inductive ReadRespTo (s : State) : ReadResp → State → Prop where
  | full {b : List Byte} (h : s.st.fcnt + b.length = 16) :
      ReadRespTo s (.data b) (((s.takeReadResp (.data b)).appendFill b).goto .decrypting)
  | short {b : List Byte} (h : s.st.fcnt + b.length ≠ 16) :
      ReadRespTo s (.data b) ((s.takeReadResp (.data b)).appendFill b)
  | ended {r : ReadResp} (hr : r = .endOfStream ∨ r = .notReadable) (h : s.st.fcnt = 0) :
      ReadRespTo s r ((s.takeReadResp r).markEof.complete .ok s.st.produced none)
  | partialBlock {r : ReadResp} (hr : r = .endOfStream ∨ r = .notReadable) (h : s.st.fcnt ≠ 0) :
      ReadRespTo s r ((s.takeReadResp r).markEof.goto .decrypting)
  | error {e : SrcErr} :
      ReadRespTo s (.error e)
        ((s.takeReadResp (.error e)).clearFill.complete .sourceIoFailure s.st.produced (some e))

theorem State.onReadResp_readRespTo (r : ReadResp) (s : State) : ReadRespTo s r (s.onReadResp r) := by
  cases r with
  | data b =>
    simp only [State.onReadResp, State.onData]
    split
    · exact .full (by simpa using ‹_›)
    · exact .short (by simpa using ‹_›)
  | endOfStream =>
    simp only [State.onReadResp, State.onEnd]
    split
    · exact .ended (.inl rfl) (by simpa using ‹_›)
    · exact .partialBlock (.inl rfl) (by simpa using ‹_›)
  | notReadable =>
    simp only [State.onReadResp, State.onEnd]
    split
    · exact .ended (.inr rfl) (by simpa using ‹_›)
    · exact .partialBlock (.inr rfl) (by simpa using ‹_›)
  | error e => exact .error

theorem length_plainBytes {st : BlockState} (h : st.fcnt ≤ 16) : (plainBytes st).length = st.fcnt := by
  simp [plainBytes, h]

theorem byteAt_plainBytes {st : BlockState} {j : Nat} (hj : j < st.fcnt) (h : st.fcnt ≤ 16) :
    byteAt (plainBytes st) j = byteAt st.fbuf.toList j ^^^ byteAt st.ks.toList j := by
  have hj' : j < 16 := by omega
  simp [byteAt, plainBytes, hj, hj']

/-- Writing at the end of the fill appends to it (42_reader.md rule R145). -/
theorem take_writeFill (buf : Bytes16) {n : Nat} {b : List Byte} (h : n + b.length ≤ 16) :
    (writeFill buf n b).toList.take (n + b.length) = buf.toList.take n ++ b := by
  apply List.ext_getElem
  · simp; omega
  · intro j h₁ h₂
    have hj : j < n + b.length := by simpa [h] using h₁
    have hj16 : j < 16 := by omega
    by_cases hn : j < n
    · simp [writeFill, hn, show n ≤ 16 by omega, Nat.not_le.mpr hn]
    · simp [writeFill, show n ≤ 16 by omega, Nat.le_of_not_lt hn, hj]
      rw [byteAt_eq_getElem]

end Sys2Proof.Machine
end

