-- ==== Sys2Proof/Laws/PerInstr.lean ====
section
/-! SUPPORT. The families of per-command lemmas: one lemma for each constructor of `Instr`. -/

namespace Sys2Proof.Laws

/-- The header of a command carries the command's own opcode and announces its length, header and payload
(30_encoding.md rules R82 and R84). -/
def Framed.Statement (i : Instr) : Prop :=
  hdrOp (encodeHeader i) = opcode i ∧ (i.WellFormed → commandBytes (encodeHeader i) = 16 + i.payload.length)

theorem framed_of_fields (i : Instr) : Framed.Statement i :=
  ⟨hdrOp_encodeHeader i, fun h => by rw [commandBytes, hdrPlen_encodeHeader h]⟩

theorem Framed.ldkey (pay : List Byte) : Framed.Statement (.ldkey pay) := framed_of_fields _

theorem Framed.ldkeyhex (pay : List Byte) : Framed.Statement (.ldkeyhex pay) := framed_of_fields _

theorem Framed.read (count : BitVec 48) : Framed.Statement (.read count) := framed_of_fields _

theorem Framed.close : Framed.Statement .close := framed_of_fields _

theorem Framed.write (x : BitVec 8) (rsv : BitVec 32) (arg : BitVec 64) (pay : List Byte) :
    Framed.Statement (.write x rsv arg pay) := framed_of_fields _

theorem Framed.seek (x : BitVec 8) (rsv : BitVec 32) (arg : BitVec 64) (pay : List Byte) :
    Framed.Statement (.seek x rsv arg pay) := framed_of_fields _

theorem Framed.posset (x : BitVec 8) (rsv : BitVec 32) (arg : BitVec 64) (pay : List Byte) :
    Framed.Statement (.posset x rsv arg pay) := framed_of_fields _

theorem Framed.length : Framed.Statement .length := framed_of_fields _

theorem Framed.posget : Framed.Statement .posget := framed_of_fields _

theorem Framed.flush : Framed.Statement .flush := framed_of_fields _

theorem Framed.setlen (value : BitVec 64) : Framed.Statement (.setlen value) := framed_of_fields _

end Sys2Proof.Laws
end

