-- ==== Sys2Proof/Laws/Sequencer.lean ====
section
/-! SUPPORT. What a command and a step can do, said once: later proofs take the cases of `CommandTo` and `StepTo` and
unfold neither `exec` nor `step`. -/

namespace Sys2Proof.Machine

/-- What a command can do (60_exceptions.md rule R181, 41_keystream_engine.md rules R123 and R124, 42_reader.md rule
R142, 43_control_commands.md rule R160). -/
inductive CommandTo (s : State) : Option Instr → State → Prop where
  | raised {i : Option Instr} (c : Status) : CommandTo s i (s.raise c)
  | loaded {i : Option Instr} (k : Bytes16) (h : s.st.keyValid = false) :
      CommandTo s i ((s.loadKey k).complete .ok 0 none)
  | passed {i : Instr} (op : CtlOp) (arg : Word64) (hi : opcode i ≠ 0x10#8) : CommandTo s (some i) (s.pass op arg)
  | read (count : BitVec 48) {t : State} (h : s.st.keyValid = true) (hl : LoopTo (s.startRead count) t) :
      CommandTo s (some (.read count)) t

theorem loadCandidate_commandTo {s : State} {i : Option Instr} (b : List Byte) (h : s.st.keyValid = false) :
    CommandTo s i (s.loadCandidate b) := by
  unfold State.loadCandidate
  split
  · exact .raised _
  · exact .loaded _ h

/-- Every command answers a next state. -/
theorem exec_answers (i : Instr) (s : State) : ∃ t, exec i s = .next t := by
  cases i <;> exact ⟨_, rfl⟩

theorem exec_commandTo {i : Instr} {s t : State} (h : exec i s = .next t) : CommandTo s (some i) t := by
  cases i with
  | ldkey pay =>
    simp only [exec, execLdkey, Host.Outcome.next.injEq] at h
    subst h
    split
    · exact .raised _
    · rename_i hk
      exact loadCandidate_commandTo _ (by simpa using hk)
  | ldkeyhex pay =>
    simp only [exec, execLdkeyhex, Host.Outcome.next.injEq] at h
    subst h
    split
    · exact .raised _
    · rename_i hk
      split
      · exact .raised _
      · exact loadCandidate_commandTo _ (by simpa using hk)
  | read count =>
    simp only [exec, execRead, Host.Outcome.next.injEq] at h
    subst h
    split
    · exact .read count ‹_› (State.loopTest_loopTo _)
    · exact .raised _
  | close => cases h; exact .passed _ _ (by simp [opcode])
  | write x rsv arg pay => cases h; exact .raised _
  | seek x rsv arg pay => cases h; exact .raised _
  | posset x rsv arg pay => cases h; exact .raised _
  | length => cases h; exact .passed _ _ (by simp [opcode])
  | posget => cases h; exact .passed _ _ (by simp [opcode])
  | flush => cases h; exact .passed _ _ (by simp [opcode])
  | setlen value => cases h; exact .passed _ _ (by simp [opcode])

theorem runCommand_commandTo {d : Except DecodeError Instr} {s t : State} (h : runCommand d s = .next t) :
    CommandTo s d.toOption t := by
  cases d with
  | ok i => exact exec_commandTo h
  | error e => cases h; exact .raised _

/-- A header decodes to a command of its own `OP` (30_encoding.md rule R85). -/
theorem opcode_of_decode {h : Header} {pay : List Byte} {i : Instr} (hd : decode h pay = .ok i) :
    hdrOp h = opcode i := by
  cases decode_decodesTo hd <;> assumption

/-- Only `OP` 0x10 decodes to READ (30_encoding.md rule R84). -/
theorem hdrOp_of_decode_read {h : Header} {pay : List Byte} {count : BitVec 48}
    (hd : decode h pay = .ok (.read count)) : hdrOp h = 0x10#8 := opcode_of_decode hd

/-- What a step can do (42_reader.md rule R150, 43_control_commands.md rule R160, 70_reset_and_hazards.md rule R202). -/
inductive StepTo (s : State) : State → Prop where
  | reset (h : s.io.rst = true) : StepTo s s.assertReset
  | wait (h : s.io.rst = false) : StepTo s s
  | command (h : Header) (rest : List Header) {t : State} (hr : s.io.rst = false) (hf : s.st.fsm = .idle)
      (hc : s.io.cmd = h :: rest) (hp : (hdrPlen h).toNat ≤ s.io.pay.length)
      (ht : CommandTo (s.accept h) (decode h (s.io.pay.take (hdrPlen h).toNat)).toOption t) : StepTo s t
  | issue (hr : s.io.rst = false) (hf : s.st.fsm = .filling) (hq : s.st.req = 0) : StepTo s s.issueRead
  | response (r : ReadResp) (rest : List ReadResp) {t : State} (hr : s.io.rst = false) (hf : s.st.fsm = .filling)
      (hq : s.st.req ≠ 0) (hs : s.io.srd = r :: rest) (hc : readContract s.st.req r = true)
      (ht : ReadRespTo s r t) : StepTo s t
  | keystream (hr : s.io.rst = false) (hf : s.st.fsm = .decrypting) : StepTo s (s.ksBlock.goto .appending)
  | append {t : State} (hr : s.io.rst = false) (hf : s.st.fsm = .appending) (ht : LoopTo s.emitBlock t) : StepTo s t
  | answerOk (v : Word64) (rest : List CtlResp) (hr : s.io.rst = false) (hf : s.st.fsm = .ctlWait)
      (hs : s.io.sctl = .ok v :: rest) : StepTo s ((s.takeCtlResp (.ok v)).complete .ok v none)
  | answerError (e : SrcErr) (rest : List CtlResp) (hr : s.io.rst = false) (hf : s.st.fsm = .ctlWait)
      (hs : s.io.sctl = .error e :: rest) :
      StepTo s ((s.takeCtlResp (.error e)).complete .sourceIoFailure 0 (some e))

theorem step_stepTo {s t : State} (h : step s = .next t) : StepTo s t := by
  unfold step cycle at h
  split at h
  · cases h; exact .reset ‹_›
  rename_i hr
  replace hr : s.io.rst = false := by simpa using hr
  split at h
  · cases h; exact .wait hr
  unfold blockStep at h
  split at h
  · rename_i hf
    unfold idleStep at h
    split at h
    · cases h; exact .wait hr
    · rename_i hd rest hc
      split at h
      · cases h; exact .wait hr
      · exact .command hd rest hr hf hc (by omega) (runCommand_commandTo h)
  · rename_i hf
    unfold fillingStep at h
    split at h
    · cases h; exact .issue hr hf ‹_›
    · rename_i hq
      split at h
      · cases h; exact .wait hr
      · rename_i r rest hs
        split at h
        · cases h; exact .response r rest hr hf hq hs ‹_› (State.onReadResp_readRespTo r s)
        · cases h
  · cases h; exact .keystream hr ‹_›
  · cases h; exact .append hr ‹_› (State.loopTest_loopTo _)
  · rename_i hf
    unfold ctlWaitStep at h
    split at h
    · cases h; exact .wait hr
    · rename_i r rest hs
      cases h
      cases r with
      | ok v => exact .answerOk v rest hr hf hs
      | error e => exact .answerError e rest hr hf hs

/-- A step of a machine that is free is the block's step. -/
theorem step_of_free {s : State} (hr : s.io.rst = false) (hs : s.io.stalled = false) : step s = blockStep s := by
  simp [step, cycle, hr, hs]

end Sys2Proof.Machine
end

