-- ==== Sys2Proof/Laws/Stream.lean ====
section
/-! SUPPORT. The streams, the tally and the observer of a record of transfers, one appended event at a time, what
appending the bytes of a block does to them, the streams as what was delivered and emitted, and what a list of events took
from the ports. -/

namespace Sys2Proof.Machine

@[simp] theorem stream_nil : stream [] = ⟨[], [], []⟩ := rfl

@[simp] theorem stream_append_cons (tr : List Event) (e : Event) (es : List Event) :
    stream (tr ++ e :: es) = es.foldl streamEvent (streamEvent (stream tr) e) := by
  simp [stream]

theorem stream_append (tr es : List Event) : stream (tr ++ es) = es.foldl streamEvent (stream tr) := by
  simp [stream]

/-- Emitting the bytes `xs` moves as many bytes of the fill to the decrypted stream. -/
theorem foldl_streamEvent_out (xs : List Byte) (v : Stream) :
    (xs.map Event.out).foldl streamEvent v =
      ⟨v.out ++ xs, v.dec ++ v.fill.take xs.length, v.fill.drop xs.length⟩ := by
  induction xs generalizing v with
  | nil => simp
  | cons x xs ih =>
    rw [List.map_cons, List.foldl_cons, ih]
    cases hf : v.fill <;> simp [streamEvent, hf]

@[simp] theorem sinceReset_nil : sinceReset [] = [] := rfl

theorem sinceReset_concat (tr : List Event) (e : Event) :
    sinceReset (tr ++ [e]) = if e = .reset then [] else sinceReset tr ++ [e] := by
  simp [sinceReset]

/-- The output of the streams is what was emitted since the last reset. -/
theorem stream_out_eq_emitted (tr : List Event) : (stream tr).out = emitted tr := by
  induction tr using List.reverseRecOn with
  | nil => rfl
  | append_singleton tr e ih =>
    rw [stream_append_cons, emitted, sinceReset_concat]
    simp only [emitted] at ih
    cases e with
    | readResp r => cases r <;> simp [streamEvent, emittedBytes, ih]
    | _ => simp [streamEvent, emittedBytes, ih]

/-- While no upstream read has failed, the bytes decrypted and the fill are together what was delivered. -/
theorem stream_dec_append_fill {tr : List Event} (h : noReadError tr = true) :
    (stream tr).dec ++ (stream tr).fill = delivered tr := by
  induction tr using List.reverseRecOn with
  | nil => rfl
  | append_singleton tr e ih =>
    rw [stream_append_cons, delivered, sinceReset_concat]
    rw [noReadError, sinceReset_concat] at h
    simp only [delivered, noReadError] at ih
    cases e with
    | reset => rfl
    | readResp r => cases r <;> simp_all [streamEvent, deliveredBytes, isReadError, ← ih]
    | out x =>
      simp_all [streamEvent, deliveredBytes, isReadError, ← ih]
      cases (stream tr).fill <;> rfl
    | _ => simp_all [streamEvent, deliveredBytes, isReadError]

@[simp] theorem tally_nil : tally [] = ⟨0, true⟩ := rfl

@[simp] theorem tally_append_cons (tr : List Event) (e : Event) (es : List Event) :
    tally (tr ++ e :: es) = es.foldl tallyEvent (tallyEvent (tally tr) e) := by
  simp [tally]

/-- Emitting the bytes `xs` adds their number to the tally. -/
theorem foldl_tallyEvent_out (xs : List Byte) (v : Tally) :
    (xs.map Event.out).foldl tallyEvent v = { v with outs := v.outs + xs.length } := by
  induction xs generalizing v with
  | nil => rfl
  | cons x xs ih =>
    rw [List.map_cons, List.foldl_cons, ih]
    simp [tallyEvent]; omega

@[simp] theorem takenHeaders_append (es fs : List Event) : takenHeaders (es ++ fs) = takenHeaders es ++ takenHeaders fs := by
  simp [takenHeaders]

@[simp] theorem takenHeaders_out (xs : List Byte) : takenHeaders (xs.map .out) = [] := by
  simp [takenHeaders]

@[simp] theorem takenPayload_append (es fs : List Event) : takenPayload (es ++ fs) = takenPayload es ++ takenPayload fs := by
  simp [takenPayload]

@[simp] theorem takenPayload_out (xs : List Byte) : takenPayload (xs.map .out) = [] := by
  simp [takenPayload]

@[simp] theorem takenReads_append (es fs : List Event) : takenReads (es ++ fs) = takenReads es ++ takenReads fs := by
  simp [takenReads]

@[simp] theorem takenReads_out (xs : List Byte) : takenReads (xs.map .out) = [] := by
  simp [takenReads]

@[simp] theorem takenCtls_append (es fs : List Event) : takenCtls (es ++ fs) = takenCtls es ++ takenCtls fs := by
  simp [takenCtls]

@[simp] theorem takenCtls_out (xs : List Byte) : takenCtls (xs.map .out) = [] := by
  simp [takenCtls]

@[simp] theorem monitor_nil : monitor [] = some ⟨none, 0, false⟩ := rfl

theorem monitor_append_singleton (tr : List Event) (e : Event) :
    monitor (tr ++ [e]) = (monitor tr).bind fun m => monitorEvent m e := by
  simp [monitor]

/-- An observer that allows one emitted byte allows any number of them. -/
theorem monitor_append_out {tr : List Event} {m : Monitor} (h : monitor tr = some m) (hq : m.req = 0)
    (hc : m.ctl = false) (ho : m.cmd.map hdrOp = some 0x10) (xs : List Byte) :
    monitor (tr ++ xs.map .out) = some m := by
  induction xs generalizing tr with
  | nil => simpa using h
  | cons x xs ih =>
    have h' : monitor (tr ++ [Event.out x]) = some m := by
      obtain ⟨hd, hm, he⟩ := Option.map_eq_some_iff.mp ho
      simp [monitor_append_singleton, h, monitorEvent, hq, hc, hm, he]
    have := ih h'
    simpa using this

end Sys2Proof.Machine
end

