-- ==== Sys2Proof/Tests/Slice0.lean ====
section
/-! SUPPORT. Tests: expected values come from 95_test_vectors.md, 30_encoding.md rule R91 or the opcode map of rule R84,
none from the model. After them, for every statement of Certificates/Slice0/Obligations.lean that has hypotheses, a
witness: a concrete state and operands that meet them. -/

open Sys2Proof Sys2Proof.Machine

namespace Sys2Proof.Tests

/-! ## Helpers -/

/-- The ASCII codes of a string. -/
def ascii (s : String) : List Byte := s.toList.map fun ch => BitVec.ofNat 8 ch.toNat

/-- The `n` bytes of a number, most significant first. -/
def bytes (n v : Nat) : List Byte := (List.range n).map fun j => BitVec.ofNat 8 (v / 256 ^ (n - 1 - j))

/-- The key `K` of 95_test_vectors.md. -/
def keyK : Bytes16 := ofBE16 0x000102030405060708090a0b0c0d0e0f

/-- The record after a key load of `K`. -/
def keyed : BlockState := { BlockState.reset with keyValid := true, key := keyK }

/-- A machine with the given record and ports. -/
def mk (st : BlockState) (io : Ports) : State := { st := st, io := io, ctrIncBits := ctrIncBitsDefault }

/-- A command offered to a block in the given record. -/
def offered (st : BlockState) (h : Header) (pay : List Byte) : State := mk st { Ports.quiet with cmd := [h], pay := pay }

/-- The state a step answers; reset where it answers none. -/
def after (s : State) : State :=
  match step s with
  | .next t => t
  | .fault _ => State.reset
  | .refused _ => State.reset

/-- The completion words a record of transfers ends with, with their sidebands. -/
def completions (s : State) : List (CplWord × Option SrcErr) :=
  s.io.trace.filterMap fun e => match e with
    | .cpl w err => some (w, err)
    | _ => none

/-- What a command completes with in its first step. -/
def runs (st : BlockState) (h : Header) (pay : List Byte) : List (CplWord × Option SrcErr) :=
  completions (after (offered st h pay))

/-- A block waiting for the answer to the control request of the command with header `h`. -/
def waitingCtl (h : Header) (r : CtlResp) : State :=
  mk { keyed with fsm := .ctlWait, cmd := h } { Ports.quiet with sctl := [r] }

/-! ## Well-formed commands: a payload PLEN can announce (30_encoding.md rule R82) -/

/-- A payload one byte longer than PLEN can say. -/
def overlong : List Byte := List.replicate 65536 0

theorem length_overlong : overlong.length = 65536 := List.length_replicate

theorem smoke_ldkey : ¬ (Instr.ldkey overlong).WellFormed := by
  simp [Instr.WellFormed, Instr.payload, length_overlong]

theorem smoke_ldkeyhex : ¬ (Instr.ldkeyhex overlong).WellFormed := by
  simp [Instr.WellFormed, Instr.payload, length_overlong]

theorem smoke_write : ¬ (Instr.write 0 0 0 overlong).WellFormed := by
  simp [Instr.WellFormed, Instr.payload, length_overlong]

theorem smoke_seek : ¬ (Instr.seek 0 0 0 overlong).WellFormed := by
  simp [Instr.WellFormed, Instr.payload, length_overlong]

theorem smoke_posset : ¬ (Instr.posset 0 0 0 overlong).WellFormed := by
  simp [Instr.WellFormed, Instr.payload, length_overlong]

theorem smoke_longest : (Instr.ldkey overlong.tail).WellFormed ∧ (Instr.read 0).WellFormed := by
  simp [Instr.WellFormed, Instr.payload, length_overlong]

/-! ## Decoding: each word is written from the fields of 30_encoding.md rules R80 and R84 -/

theorem decode_ldkey :
    decode 0x01000002000000000000000000000000 [0xaa, 0xbb] = .ok (.ldkey [0xaa, 0xbb]) := by decide

theorem decode_ldkeyhex :
    decode 0x02000002000000000000000000000000 [0x61, 0x62] = .ok (.ldkeyhex [0x61, 0x62]) := by decide

theorem decode_read : decode 0x10000000000000000000ffffffffffff [] = .ok (.read 0xffffffffffff) := by decide

theorem decode_close : decode 0x11000000000000000000000000000000 [] = .ok .close := by decide

theorem decode_write :
    decode 0x20ff0001ffffffff0123456789abcdef [0x77] = .ok (.write 0xff 0xffffffff 0x0123456789abcdef [0x77]) := by
  decide

theorem decode_seek : decode 0x21010000000000000000000000000010 [] = .ok (.seek 1 0 16 []) := by decide

theorem decode_posset : decode 0x22000000000000080000000000000000 [] = .ok (.posset 0 8 0 []) := by decide

theorem decode_length : decode 0x30000000000000000000000000000000 [] = .ok .length := by decide

theorem decode_posget : decode 0x31000000000000000000000000000000 [] = .ok .posget := by decide

theorem decode_flush : decode 0x32000000000000000000000000000000 [] = .ok .flush := by decide

theorem decode_setlen : decode 0x3300000000000000ffffffffffffffff [] = .ok (.setlen 0xffffffffffffffff) := by decide

/-- 95_test_vectors.md section 3.9: opcodes outside the map. -/
theorem decode_unassigned :
    decode 0x00000000000000000000000000000000 [] = .error (.unassignedOp 0x00) ∧
    decode 0x40000000000000000000000000000000 [] = .error (.unassignedOp 0x40) ∧
    decode 0xff000000000000000000000000000000 [] = .error (.unassignedOp 0xff) ∧
    decode 0x03000005000000000000000000000000 [1, 2, 3, 4, 5] = .error (.unassignedOp 0x03) := by decide

/-- 95_test_vectors.md sections 3.2, 3.5, 3.7 and 3.9: fixed fields that do not hold. -/
theorem decode_fixed_fields :
    decode 0x10010000000000000000000000000005 [] = .error (.fixedField 0x10) ∧
    decode 0x10000001000000000000000000000005 [0] = .error (.fixedField 0x10) ∧
    decode 0x10000000000000010000000000000005 [] = .error (.fixedField 0x10) ∧
    decode 0x10000000000000000001000000000000 [] = .error (.fixedField 0x10) ∧
    decode 0x11000000000000000000000000000001 [] = .error (.fixedField 0x11) ∧
    decode 0x01000001000000000000000000000001 [0] = .error (.fixedField 0x01) ∧
    decode 0x02010001000000000000000000000000 [0] = .error (.fixedField 0x02) ∧
    decode 0x30000000000000000000000000000001 [] = .error (.fixedField 0x30) ∧
    decode 0x33000002000000000000000000000064 [0, 0] = .error (.fixedField 0x33) := by decide

/-- The row numbering of spec/opcode_table.json: the header is bits 127 to 0, payload bytes follow above it. -/
theorem decode_table_word :
    decodeTableWord 128 0x10000000000000000000000000000005 = some (.read 5) ∧
    decodeTableWord 128 0x01000002000000000000000000000000 = some (.ldkey [0, 0]) ∧
    decodeTableWord 128 0x40000000000000000000000000000000 = none := by decide

/-! ## AES-128, the counter and decodeKey (95_test_vectors.md sections 1 and 3) -/

/-- 95_test_vectors.md section 1.3. -/
theorem test_field :
    xtime 0x57 = 0xae ∧ gmul 0x57 0x83 = 0xc1 ∧ gmul 0x57 0x13 = 0xfe ∧
    sbox 0x00 = 0x63 ∧ sbox 0x01 = 0x7c ∧ sbox 0x53 = 0xed ∧ sbox 0xff = 0x16 := by decide

/-- 95_test_vectors.md section 1.1, round 1: SubBytes, ShiftRows and MixColumns. -/
theorem test_round_one :
    subBytes (ofBE16 0x00102030405060708090a0b0c0d0e0f0) = ofBE16 0x63cab7040953d051cd60e0e7ba70e18c ∧
    shiftRows (ofBE16 0x63cab7040953d051cd60e0e7ba70e18c) = ofBE16 0x6353e08c0960e104cd70b751bacad0e7 ∧
    mixColumns (ofBE16 0x6353e08c0960e104cd70b751bacad0e7) = ofBE16 0x5f72641557f5bc92f7be3b291db9f91a := by
  decide +kernel

/-- 95_test_vectors.md section 1.2: FIPS-197 Appendices A.1 and B. -/
theorem test_aes_appendix_b :
    roundKey (keyExpansion (ofBE16 0x2b7e151628aed2a6abf7158809cf4f3c)) 10 =
      ofBE16 0xd014f9a8c9ee2589e13f0cc8b6630ca6 ∧
    aes128 (keyExpansion (ofBE16 0x2b7e151628aed2a6abf7158809cf4f3c)) (ofBE16 0x3243f6a8885a308d313198a2e0370734) =
      ofBE16 0x3925841d02dc09fbdc118597196a0b32 := by decide +kernel

/-- 95_test_vectors.md section 3.3, widths 128 and 32. -/
theorem test_inc :
    inc 128 (ofBE16 0xff) = ofBE16 0x100 ∧
    inc 128 (ofBE16 0xffffffffffffffffffffffffffffffff) = ofBE16 0 ∧
    inc 32 (ofBE16 0x0000000000000000ffffffffffffffff) = ofBE16 0x0000000000000000ffffffff00000000 := by
  decide +kernel

/-- 95_test_vectors.md section 3.1. -/
theorem test_decodeKey :
    decodeKey (ascii "") = some [] ∧ decodeKey (ascii "0") = none ∧ decodeKey (ascii "aB") = some [0xab] ∧
    decodeKey (ascii "0g") = none ∧ decodeKey (ascii " 0") = none ∧ decodeKey (ascii "0x") = none ∧
    decodeKey (ascii "1a2b3c") = some [0x1a, 0x2b, 0x3c] := by decide +kernel

/-! ## One step of each command (95_test_vectors.md sections 3.2 to 3.9) -/

/-- Section 3.2, rows 1 to 4: 16, 15, 0 and 32 bytes. -/
theorem test_ldkey :
    runs .reset 0x01000010000000000000000000000000 (bytes 16 0x000102030405060708090a0b0c0d0e0f) =
      [(0x00010000000000000000000000000000, none)] ∧
    (after (offered .reset 0x01000010000000000000000000000000
      (bytes 16 0x000102030405060708090a0b0c0d0e0f))).st.key = keyK ∧
    runs .reset 0x0100000f000000000000000000000000 (bytes 15 1) = [(0x04010000000000000000000000000000, none)] ∧
    runs .reset 0x01000000000000000000000000000000 [] = [(0x04010000000000000000000000000000, none)] ∧
    runs .reset 0x01000020000000000000000000000000 (bytes 32 1) = [(0x04010000000000000000000000000000, none)] := by
  decide +kernel

/-- Section 3.2, after key: the key is locked. -/
theorem test_ldkey_locked :
    runs keyed 0x01000010000000000000000000000000 (bytes 16 7) = [(0x02010000000000000000000000000000, none)] ∧
    (after (offered keyed 0x01000010000000000000000000000000 (bytes 16 7))).st.key = keyK := by decide +kernel

/-- Program P3: the upper-case key. -/
theorem test_ldkeyhex :
    runs .reset 0x02000020000000000000000000000000 (ascii "000102030405060708090A0B0C0D0E0F") =
      [(0x00020000000000000000000000000000, none)] ∧
    (after (offered .reset 0x02000020000000000000000000000000
      (ascii "000102030405060708090A0B0C0D0E0F"))).st.key = keyK := by decide +kernel

/-- Section 3.2, the failing rows: odd, not hex, 30 characters, none, and the order of the checks. -/
theorem test_ldkeyhex_fails :
    runs .reset 0x02000003000000000000000000000000 (ascii "abc") = [(0x01020000000000000000000000000000, none)] ∧
    runs .reset 0x02000020000000000000000000000000 (ascii "000102030405060708090a0b0c0d0e0g") =
      [(0x01020000000000000000000000000000, none)] ∧
    runs .reset 0x0200001e000000000000000000000000 (ascii "000102030405060708090a0b0c0d0e") =
      [(0x04020000000000000000000000000000, none)] ∧
    runs .reset 0x02000000000000000000000000000000 [] = [(0x04020000000000000000000000000000, none)] ∧
    runs keyed 0x02000003000000000000000000000000 (ascii "abc") = [(0x02020000000000000000000000000000, none)] := by
  decide +kernel

/-- Program P4: READ 0 without and with a key; READ after end of stream (program P1). -/
theorem test_read_at_once :
    runs .reset 0x10000000000000000000000000000000 [] = [(0x05100000000000000000000000000000, none)] ∧
    runs keyed 0x10000000000000000000000000000000 [] = [(0x00100000000000000000000000000000, none)] ∧
    runs { keyed with eof := true } 0x10000000000000000000000000000005 [] =
      [(0x00100000000000000000000000000000, none)] := by decide +kernel

/-- Program P1, the step that appends: 5 bytes of ciphertext, keystream block 0, "Hello". -/
theorem test_read_hello :
    (after (mk { keyed with
        fsm := .appending, init := true, eof := true, fcnt := 5, count := 5
        cmd := 0x10000000000000000000000000000005
        fbuf := ofBE16 0x8ec4575be80000000000000000000000
        ks := ofBE16 0xc6a13b37878f5b826f4f8162a1c8d879 } Ports.quiet)).io.trace =
      [.out 0x48, .out 0x65, .out 0x6c, .out 0x6c, .out 0x6f,
       .cpl 0x00100000000000000000000000000005 none] := by decide +kernel

/-- 41_keystream_engine.md rule R132: keystream block 1 under `K`, and the counter after it. -/
theorem test_ksblock :
    (after (mk { keyed with fsm := .decrypting, init := true, rk := keyExpansion keyK, ctr := ofBE16 1, fcnt := 16 }
      Ports.quiet)).st.ks = ofBE16 0x7346139595c0b41e497bbde365f42d0a ∧
    (after (mk { keyed with fsm := .decrypting, init := true, ctr := ofBE16 1, fcnt := 16 } Ports.quiet)).st.ctr =
      ofBE16 2 := by decide +kernel

/-- Section 3.7: the control request each pass-through sends. -/
theorem test_pass_requests :
    (after (offered .reset 0x11000000000000000000000000000000 [])).io.trace.getLast? = some (.ctlReq .close 0) ∧
    (after (offered .reset 0x30000000000000000000000000000000 [])).io.trace.getLast? = some (.ctlReq .length 0) ∧
    (after (offered .reset 0x31000000000000000000000000000000 [])).io.trace.getLast? = some (.ctlReq .position 0) ∧
    (after (offered .reset 0x32000000000000000000000000000000 [])).io.trace.getLast? = some (.ctlReq .flush 0) ∧
    (after (offered .reset 0x33000000000000000000000000000064 [])).io.trace.getLast? =
      some (.ctlReq .setLength 100) := by decide +kernel

/-- Section 3.7: the completion of each pass-through, its value and its error verbatim. -/
theorem test_pass_answers :
    completions (after (waitingCtl 0x30000000000000000000000000000000 (.ok 32))) =
      [(0x00300000000000000000000000000020, none)] ∧
    completions (after (waitingCtl 0x31000000000000000000000000000000 (.ok 17))) =
      [(0x00310000000000000000000000000011, none)] ∧
    completions (after (waitingCtl 0x32000000000000000000000000000000 (.error 4))) =
      [(0x03320000000000000000000000000000, some 4)] ∧
    completions (after (waitingCtl 0x33000000000000000000000000000064 (.ok 0))) =
      [(0x00330000000000000000000000000000, none)] ∧
    completions (after (waitingCtl 0x11000000000000000000000000000000 (.error 5))) =
      [(0x03110000000000000000000000000000, some 5)] := by decide +kernel

/-- Section 3.8. -/
theorem test_rejected :
    runs .reset 0x20000004000000000000000000000000 (ascii "abcd") = [(0x02200000000000000000000000000000, none)] ∧
    runs keyed 0x20ff0001ffffffffffffffffffffffff [0] = [(0x02200000000000000000000000000000, none)] ∧
    runs keyed 0x21010000000000000000000000000010 [] = [(0x02210000000000000000000000000000, none)] ∧
    runs .reset 0x22000000000000000000000000000000 [] = [(0x02220000000000000000000000000000, none)] := by
  decide +kernel

/-- Section 3.9: an illegal header echoes its OP and consumes its payload. -/
theorem test_illegal :
    runs .reset 0x03000005000000000000000000000000 [1, 2, 3, 4, 5] = [(0x06030000000000000000000000000000, none)] ∧
    (after (offered .reset 0x03000005000000000000000000000000 [1, 2, 3, 4, 5])).io.pay = [] ∧
    runs .reset 0x02010020000000000000000000000000 (bytes 32 0) = [(0x06020000000000000000000000000000, none)] := by
  decide +kernel

/-! ## Witnesses: the hypotheses of the statements can be met -/

/-- The header of `READ 5` (30_encoding.md rule R91). -/
def readHeader : Header := 0x10000000000000000000000000000005

/-- The record of a `READ 5` under `K` before any byte was emitted. -/
def readingSt (fsm : Fsm) (fcnt req : Nat) (eof : Bool) : BlockState :=
  { keyed with
    fsm := fsm, init := true, rk := keyExpansion keyK, eof := eof, fcnt := fcnt, count := 5, req := req
    cmd := readHeader }

/-- A machine in a `READ 5`, with the given answers waiting on SRD. -/
def reading (fsm : Fsm) (fcnt req : Nat) (eof : Bool) (srd : List ReadResp) (trace : List Event) : State :=
  mk (readingSt fsm fcnt req eof) { Ports.quiet with srd := srd, trace := trace }

theorem reading_blockInv {fsm : Fsm} {fcnt req : Nat} {eof : Bool} {srd : List ReadResp} {trace : List Event}
    (h₁ : fcnt ≤ 16) (h₂ : req = 0 ∨ (fsm = .filling ∧ req = 16 - fcnt))
    (h₃ : fsm = .idle ∨ fsm = .ctlWait → fcnt = 0) (h₄ : fsm = .filling → eof = false ∧ fcnt < 16)
    (h₅ : fsm = .decrypting ∨ fsm = .appending → 1 ≤ fcnt ∧ (eof = false → fcnt = 16)) :
    BlockInv (reading fsm fcnt req eof srd trace) where
  fillBound := h₁
  request := h₂
  idleEmpty := h₃
  filling := h₄
  blockReady := h₅
  reading := fun _ => ⟨rfl, rfl, show (0 : BitVec 64).toNat < (5 : BitVec 48).toNat by decide⟩
  overshoot := show (0 : BitVec 64).toNat ≤ (5 : BitVec 48).toNat + 15 by decide
  initKey := fun _ => ⟨rfl, rfl⟩
  initCtr := fun h => by cases h
  ctrBound := show be16 zero16 < 2 ^ 128 by decide

/-- A READ with a request for 16 bytes outstanding and one byte of ciphertext waiting on SRD. -/
def asked : State := reading .filling 0 16 false [.data [0x8e]] [.accept readHeader [], .readReq 16]

theorem asked_blockInv : BlockInv asked :=
  reading_blockInv (by decide) (by decide) (by decide) (by decide) (by decide)

/-- MovesKeepSystemInv, StepKeepsStreamInv, StepKeepsProtocolInv, StepKeepsValueInv, BlockIsNeverRefused. -/
theorem witness_system : SystemInv asked ∧ (∃ t, step asked = .next t) where
  left :=
    { block := asked_blockInv
      streams :=
        { fill := rfl
          lengths := rfl
          bytes := fun d h => by cases h
          aligned := fun _ => rfl
          counter := by decide
          current := fun h => by cases h
          quiet := fun h => by cases h }
      protocol := { kept := by decide +kernel, readOp := fun _ => by decide }
      value :=
        { agree := rfl
          produced := fun _ => rfl
          whole := fun _ => by decide
          control := fun h => by cases h }
      source := { read := .inr ⟨_, rfl, rfl, by decide, rfl⟩, ctl := .inl rfl } }
  right := ⟨_, rfl⟩

/-- The tally counts the bytes of a READ and compares its VALUE with them (95_test_vectors.md program P1: five bytes, then
VALUE 5; the same bytes with VALUE 4 would not agree). -/
theorem test_tally :
    (tally ([.accept readHeader []] ++ (ascii "Hello").map .out ++ [.cpl 0x00100000000000000000000000000005 none])) =
      ⟨5, true⟩ ∧
    (tally ([.accept readHeader []] ++ (ascii "Hello").map .out ++ [.cpl 0x00100000000000000000000000000004 none])) =
      ⟨5, false⟩ := by decide +kernel

/-- A control request outstanding, its answer not yet given: the other side of SourceInv. -/
theorem witness_sourceCtl : SourceInv (waitingCtl 0x30000000000000000000000000000000 (.ok 32)) where
  read := .inl rfl
  ctl := .inr ⟨_, rfl, rfl⟩

/-- StepKeepsBlockInv, EndOfStreamIsSticky and KeyIsImmutableUntilReset: a block at end of stream, free to step. -/
theorem witness_blockInv :
    BlockInv (reading .decrypting 1 0 true [] []) ∧ Free (reading .decrypting 1 0 true [] []) ∧
      (reading .decrypting 1 0 true [] []).st.eof = true ∧ ∃ t, step (reading .decrypting 1 0 true [] []) = .next t :=
  ⟨reading_blockInv (by decide) (by decide) (by decide) (by decide) (by decide), ⟨rfl, rfl⟩, rfl, _, rfl⟩

/-- PassThroughSendsItsRequest: each command it names. -/
theorem witness_passRequest :
    passRequest .close = some (.close, 0) ∧ passRequest .length = some (.length, 0) ∧
    passRequest .posget = some (.position, 0) ∧ passRequest .flush = some (.flush, 0) ∧
    passRequest (.setlen 0xffffffffffffffff) = some (.setLength, 0xffffffffffffffff) := by decide

/-- PassThroughAnswerCompletes: either answer. -/
theorem witness_passAnswer (r : CtlResp) :
    Free (waitingCtl 0x30000000000000000000000000000000 r) ∧
    (waitingCtl 0x30000000000000000000000000000000 r).st.fsm = .ctlWait ∧
    (waitingCtl 0x30000000000000000000000000000000 r).io.sctl = r :: [] := ⟨⟨rfl, rfl⟩, rfl, rfl⟩

/-- RejectedOperationsAlwaysUnsupported. -/
theorem witness_rejected :
    Instr.posset 0xff 1 2 [3] ∈ [Instr.write 0xff 1 2 [3], .seek 0xff 1 2 [3], .posset 0xff 1 2 [3]] := by decide

/-- IllegalHeaderCompletes: an opcode outside the map with exactly its payload, and one fixed bit. -/
theorem witness_illegal :
    Free (offered .reset 0x03000005000000000000000000000000 [1, 2, 3, 4, 5]) ∧
    (hdrPlen 0x03000005000000000000000000000000).toNat ≤ [1, 2, 3, 4, 5].length ∧
    legalHeader 0x03000005000000000000000000000000 = false ∧
    legalHeader 0x10000000000000000001000000000000 = false := by
  refine ⟨⟨rfl, rfl⟩, ?_⟩
  decide

/-- StepRunsDecodedCommand: a command with payload, and another waiting behind it. -/
theorem witness_stepRuns :
    Free (mk .reset { Ports.quiet with cmd := [0x01000001000000000000000000000000, readHeader], pay := [9] }) ∧
    (hdrPlen 0x01000001000000000000000000000000).toNat ≤ [9].length ∧
    decode 0x01000001000000000000000000000000 ([(9 : Byte)].take (hdrPlen 0x01000001000000000000000000000000).toNat) =
      .ok (.ldkey [9]) := by
  refine ⟨⟨rfl, rfl⟩, ?_⟩
  decide

/-- WaitingChangesNothing: a payload one byte short; a request unanswered; a control request unanswered. -/
theorem witness_waiting :
    ((offered .reset 0x03000005000000000000000000000000 [1, 2, 3, 4]).st.fsm = .idle ∧
      [1, 2, 3, 4].length < (hdrPlen 0x03000005000000000000000000000000).toNat) ∧
    ((reading .filling 15 1 false [] []).st.fsm = .filling ∧ 0 < (reading .filling 15 1 false [] []).st.req ∧
      (reading .filling 15 1 false [] []).io.srd = []) ∧
    (mk { BlockState.reset with fsm := .ctlWait } Ports.quiet).io.sctl = [] := by
  refine ⟨⟨rfl, by decide⟩, ⟨rfl, by decide, rfl⟩, rfl⟩

/-- FillIssuesRemainder: the first request of a block and the last possible one. -/
theorem witness_issue :
    (Free (reading .filling 0 0 false [] []) ∧ (reading .filling 0 0 false [] []).st.fsm = .filling ∧
      (reading .filling 0 0 false [] []).st.req = 0) ∧
    (Free (reading .filling 15 0 false [] []) ∧ (reading .filling 15 0 false [] []).st.req = 0) :=
  ⟨⟨⟨rfl, rfl⟩, rfl, rfl⟩, ⟨rfl, rfl⟩, rfl⟩

/-- DataResponseAppendsToFill: the byte that fills the block, and a short read. -/
theorem witness_data :
    (Free (reading .filling 15 1 false [.data [7]] []) ∧ (reading .filling 15 1 false [.data [7]] []).st.fsm = .filling ∧
      (reading .filling 15 1 false [.data [7]] []).io.srd = [.data [7]] ∧ 1 ≤ [(7 : Byte)].length ∧
      [(7 : Byte)].length ≤ (reading .filling 15 1 false [.data [7]] []).st.req ∧
      (reading .filling 15 1 false [.data [7]] []).st.fcnt + (reading .filling 15 1 false [.data [7]] []).st.req ≤ 16) ∧
    [(7 : Byte)].length ≤ (reading .filling 0 16 false [.data [7]] []).st.req := by
  refine ⟨⟨⟨rfl, rfl⟩, rfl, rfl, by decide, by decide, by decide⟩, by decide⟩

/-- ReadErrorDiscardsFill: an error in the middle of a fill. -/
theorem witness_error :
    Free (reading .filling 7 9 false [.error 1] []) ∧ (reading .filling 7 9 false [.error 1] []).st.fsm = .filling ∧
    0 < (reading .filling 7 9 false [.error 1] []).st.req ∧
    (reading .filling 7 9 false [.error 1] []).io.srd = [.error 1] := ⟨⟨rfl, rfl⟩, rfl, by decide, rfl⟩

/-- EndResponseLatchesEof: an empty fill and a partial one, either response. -/
theorem witness_end :
    (Free (reading .filling 0 16 false [.endOfStream] []) ∧
      0 < (reading .filling 0 16 false [.endOfStream] []).st.req ∧
      (reading .filling 0 16 false [.endOfStream] []).io.srd = [.endOfStream]) ∧
    (Free (reading .filling 15 1 false [.notReadable] []) ∧
      0 < (reading .filling 15 1 false [.notReadable] []).st.req ∧
      (reading .filling 15 1 false [.notReadable] []).io.srd = [.notReadable]) :=
  ⟨⟨⟨rfl, rfl⟩, by decide, rfl⟩, ⟨rfl, rfl⟩, by decide, rfl⟩

/-- CounterAdvancesOncePerBlock: a block to decrypt, and a step of another kind. -/
theorem witness_counter :
    (Free (reading .decrypting 16 0 false [] []) ∧ (reading .decrypting 16 0 false [] []).st.fsm = .decrypting) ∧
    (BlockInv asked ∧ asked.io.rst = false ∧ asked.st.fsm ≠ .decrypting ∧ ∃ t, step asked = .next t) :=
  ⟨⟨⟨rfl, rfl⟩, rfl⟩, asked_blockInv, rfl, by decide, _, rfl⟩

/-- A whole block to append in a READ whose count of 20 it does not reach. -/
def appendMore : State :=
  mk { readingSt .appending 16 0 false with count := 20 } Ports.quiet

theorem appendMore_blockInv : BlockInv appendMore where
  fillBound := by decide
  request := by decide
  idleEmpty := by decide
  filling := by decide
  blockReady := by decide
  reading := fun _ => ⟨rfl, rfl, by decide⟩
  overshoot := by decide
  initKey := fun _ => ⟨rfl, rfl⟩
  initCtr := fun h => by cases h
  ctrBound := by decide

/-- AppendingEmitsPlaintext: count reached by a whole block and by a partial last block, and count not reached. -/
theorem witness_appending :
    (BlockInv (reading .appending 16 0 false [] []) ∧ Free (reading .appending 16 0 false [] []) ∧
      (reading .appending 16 0 false [] []).st.fsm = .appending) ∧
    (BlockInv (reading .appending 1 0 true [] []) ∧ Free (reading .appending 1 0 true [] [])) ∧
    (BlockInv appendMore ∧ Free appendMore ∧ appendMore.st.fsm = .appending ∧
      ¬ (appendMore.st.count.toNat ≤ appendMore.st.produced.toNat + appendMore.st.fcnt ∨ appendMore.st.eof = true)) := by
  refine ⟨⟨reading_blockInv ?_ ?_ ?_ ?_ ?_, ⟨rfl, rfl⟩, rfl⟩, ⟨reading_blockInv ?_ ?_ ?_ ?_ ?_, ⟨rfl, rfl⟩⟩,
    appendMore_blockInv, ⟨rfl, rfl⟩, rfl, ?_⟩ <;> decide

/-- A READ whose request for its first block is answered by end of stream. -/
def ending : State := reading .filling 0 16 false [.endOfStream] [.accept readHeader [], .readReq 16]

/-- CompletedReadReportsProduced: end of stream on an empty fill completes the READ. -/
theorem witness_completed :
    BlockInv ending ∧ ValueInv ending ∧ Free ending ∧ ∃ t, step ending = .next t ∧ t.st.fsm = .idle :=
  ⟨reading_blockInv (by decide) (by decide) (by decide) (by decide) (by decide),
    ⟨rfl, fun _ => rfl, fun _ => by decide, fun h => by cases h⟩, ⟨rfl, rfl⟩, _, rfl, rfl⟩

/-- ExhaustedReadReturnsZero. -/
theorem witness_exhausted :
    BlockInv (reading .idle 0 0 true [] []) ∧ (reading .idle 0 0 true [] []).st.keyValid = true ∧
    (reading .idle 0 0 true [] []).st.eof = true ∧ 0 < (1 : BitVec 48).toNat :=
  ⟨reading_blockInv (by decide) (by decide) (by decide) (by decide) (by decide), rfl, rfl, by decide⟩

/-- ShortReadsAssembleBlock: 16 responses of one byte, and two of 10 and 6 bytes (program P5). -/
theorem witness_shortReads :
    (Free (reading .filling 0 0 false ((List.replicate 16 [(1 : Byte)]).map .data ++ []) []) ∧
      (∀ c ∈ List.replicate 16 [(1 : Byte)], c ≠ []) ∧ (List.replicate 16 [(1 : Byte)]).flatten.length = 16) ∧
    [List.replicate 10 (1 : Byte), List.replicate 6 2].flatten.length = 16 := by
  refine ⟨⟨⟨rfl, rfl⟩, ?_⟩, ?_⟩ <;> decide

/-- AnsweredReadCompletes: a source that answers one byte at a time. -/
theorem witness_answered :
    (∀ u : State, readContract u.st.req (if u.st.req = 0 then .endOfStream else .data [0x8e]) = true) ∧
    BlockInv (reading .filling 0 0 false [] []) ∧ Free (reading .filling 0 0 false [] []) ∧
    (reading .filling 0 0 false [] []).io.srd = [] := by
  refine ⟨fun u => ?_, reading_blockInv ?_ ?_ ?_ ?_ ?_, ⟨rfl, rfl⟩, rfl⟩
  · split
    · rfl
    · simp [readContract]; omega
  all_goals decide

/-- A block with a key and no READ yet, in `IDLE` or awaiting a control answer, has the invariant of its record. -/
theorem keyed_blockInv (fsm : Fsm) (io : Ports) (h : fsm = .idle ∨ fsm = .ctlWait) :
    BlockInv (mk { keyed with fsm := fsm } io) where
  fillBound := Nat.zero_le 16
  request := .inl rfl
  idleEmpty := fun _ => rfl
  filling := fun hf => by cases hf; simp at h
  blockReady := fun hf => by rcases hf with rfl | rfl <;> simp at h
  reading := fun hf => by rcases hf with rfl | rfl | rfl <;> simp at h
  overshoot := Nat.zero_le _
  initKey := fun hi => by cases hi
  initCtr := fun _ => rfl
  ctrBound := show be16 zero16 < 2 ^ 128 by decide

/-- EarlyInitIsUnobservable: a key and no READ yet; the acceptance of LENGTH, a control answer and an offer of the host,
which leave INIT to run; a READ, which runs it; and a reset. -/
theorem witness_earlyInit :
    (keyed.keyValid = true ∧ keyed.init = false ∧ 0 < (1 : BitVec 48).toNat) ∧
    BlockInv (offered keyed 0x30000000000000000000000000000000 []) ∧ BlockInv (offered keyed readHeader []) ∧
    BlockInv (mk { keyed with fsm := .ctlWait } { Ports.quiet with sctl := [.ok 7] }) ∧
    (∃ t, move .block (offered keyed 0x30000000000000000000000000000000 []) = .next t ∧
      t.st.keyValid = true ∧ t.st.init = false) ∧
    (∃ t, move .block (offered keyed readHeader []) = .next t ∧ t.st.init = true) ∧
    (∃ t, step (mk keyed { Ports.quiet with rst := true }) = .next t ∧ t.st.keyValid = false) ∧
    (∃ t, move .block (mk { keyed with fsm := .ctlWait } { Ports.quiet with sctl := [.ok 7] }) = .next t ∧
      t.st.init = false) ∧
    (∃ t, move (.hostHeader readHeader) (offered keyed readHeader []) = .next t ∧ t.st.init = false) :=
  ⟨by decide, keyed_blockInv .idle _ (.inl rfl), keyed_blockInv .idle _ (.inl rfl),
    keyed_blockInv .ctlWait _ (.inr rfl), ⟨_, rfl, rfl, rfl⟩, ⟨_, rfl, rfl⟩, ⟨_, rfl, rfl⟩, ⟨_, rfl, rfl⟩, _, rfl, rfl⟩

/-- KeyMaterialNeverLeaves: a READ accepted under a key, INIT included; a reset in `APPENDING`; and a block appended in
`APPENDING`, free to step. -/
theorem witness_keyMaterial :
    ((offered keyed readHeader []).st.fsm ≠ .appending ∧ ∃ t, step (offered keyed readHeader []) = .next t) ∧
    (¬ Free (mk (readingSt .appending 16 0 false) { Ports.quiet with rst := true }) ∧
      ∃ t, step (mk (readingSt .appending 16 0 false) { Ports.quiet with rst := true }) = .next t) ∧
    (Free (reading .appending 16 0 false [] []) ∧ ∃ t, step (reading .appending 16 0 false [] []) = .next t) :=
  ⟨⟨by decide, _, rfl⟩, ⟨fun h => (by cases h.1), _, rfl⟩, ⟨rfl, rfl⟩, _, rfl⟩

/-- ResetHasPriority: reset in `IDLE` while a payload is one byte short, and when it is complete; and in `FILLING` while
the payload of the command behind the READ is one byte short. -/
theorem witness_reset :
    let short : Ports :=
      { Ports.quiet with rst := true, cmd := [0x01000002000000000000000000000000], pay := [1] }
    ((mk keyed short).io.rst = true ∧ keyed.fsm = .idle ∧
      short.pay.length < (hdrPlen 0x01000002000000000000000000000000).toNat) ∧
    ((mk keyed { short with pay := [1, 2] }).io.rst = true ∧
      (hdrPlen 0x01000002000000000000000000000000).toNat ≤ [(1 : Byte), 2].length) ∧
    ((mk (readingSt .filling 0 16 false) short).io.rst = true ∧ (readingSt .filling 0 16 false).fsm ≠ .idle) := by
  decide +kernel

/-- EncodeInvertsDecode: a header with a payload. -/
theorem witness_encode :
    [(9 : Byte)].length = (hdrPlen 0x20ff0001000000000000000000000007).toNat ∧
    decode 0x20ff0001000000000000000000000007 [9] = .ok (.write 0xff 0 7 [9]) := by decide

/-- DecodesExactlyTheOpcodeTable: a header of the first row and one of the last. -/
theorem witness_rows :
    matchesRow 0x01000010000000000000000000000000 opcodeRows[0] = true ∧
    matchesRow 0x33000000000000000000000000000064 opcodeRows[10] = true := by decide

/-- DecodeKeyReadsHexPairs: a string that decodes, to one byte. -/
theorem witness_decodeKey : decodeKey [0x61, 0x42] = some [0xab] ∧ 0 < [(0xab : Byte)].length := by decide

/-- The moves by which the block takes the waiting byte, takes further bytes one at a time, and ends the stream. -/
def finish (more : List Byte) : List Move :=
  [.block] ++ more.flatMap (fun x => [.block, .sourceRead (.data [x]), .block]) ++
    [.block, .sourceRead .endOfStream, .block, .block, .block]

/-- The state a run ends in; reset where it is refused. -/
def endOf (ms : List Move) (s : State) : State :=
  match moves ms s with
  | .next t => t
  | .fault _ => State.reset
  | .refused _ => State.reset

/-- The runs of `witness_chunking`: one byte of ciphertext and two. -/
theorem finish_answers : moves (finish []) asked = .next (endOf (finish []) asked) ∧
    moves (finish [0xc4]) asked = .next (endOf (finish [0xc4]) asked) := ⟨rfl, rfl⟩

/-- ChunkingDoesNotAffectOutput: two runs under one key, the ciphertext of the first the beginning of the second's, both
back in IDLE; the first two bytes of "Hello" (95_test_vectors.md program P1) come out. -/
theorem witness_chunking :
    SystemInv asked ∧ moves (finish []) asked = .next (endOf (finish []) asked) ∧
    moves (finish [0xc4]) asked = .next (endOf (finish [0xc4]) asked) ∧
    (endOf (finish []) asked).st.key = (endOf (finish [0xc4]) asked).st.key ∧
    (endOf (finish []) asked).ctrIncBits = (endOf (finish [0xc4]) asked).ctrIncBits ∧
    noReadError (endOf (finish []) asked).io.trace = true ∧
    noReadError (endOf (finish [0xc4]) asked).io.trace = true ∧
    delivered (endOf (finish []) asked).io.trace = [0x8e] ∧
    delivered (endOf (finish [0xc4]) asked).io.trace = [0x8e, 0xc4] ∧
    (endOf (finish []) asked).st.fsm = .idle ∧ (endOf (finish [0xc4]) asked).st.fsm = .idle ∧
    emitted (endOf (finish [0xc4]) asked).io.trace = [0x48, 0x65] := by
  refine ⟨witness_system.1, finish_answers.1, finish_answers.2, ?_⟩
  decide +kernel

/-- TransfersAreNeverLost: a move of the source, a step that takes a header with its payload, and a reset that withdraws. -/
theorem witness_transfers :
    (∃ t, move (.sourceRead .endOfStream) (reading .filling 0 16 false [] []) = .next t) ∧
    (∃ t, move .block (offered .reset 0x01000001000000000000000000000000 [9]) = .next t ∧
      takenHeaders t.io.trace = [0x01000001000000000000000000000000] ∧ takenPayload t.io.trace = [9]) ∧
    (∃ t, move .block (mk keyed { Ports.quiet with rst := true, cmd := [0x01000002000000000000000000000000], pay := [1] }) =
      .next t ∧ t.io.cmd = []) := by
  refine ⟨⟨_, rfl⟩, ⟨after (offered .reset 0x01000001000000000000000000000000 [9]), rfl, ?_⟩, ⟨_, rfl, ?_⟩⟩ <;>
    decide +kernel

end Sys2Proof.Tests
end

section
/-! PROOFS. Family 00_scope.md: what a step does with the header at the front of CMD. It takes header and payload and
runs the decoded command; a header that matches no row of the opcode table does not decode, and completes
`ILLEGAL_COMMAND`. -/

namespace Sys2Proof

theorem mkHeader_and (op x op' x' : BitVec 8) (plen plen' : BitVec 16) (rsv rsv' : BitVec 32) (arg arg' : BitVec 64) :
    mkHeader op x plen rsv arg &&& mkHeader op' x' plen' rsv' arg' =
      mkHeader (op &&& op') (x &&& x') (plen &&& plen') (rsv &&& rsv') (arg &&& arg') := by
  have fields : (op ++ x ++ plen ++ rsv ++ arg) &&& (op' ++ x' ++ plen' ++ rsv' ++ arg') =
      (op &&& op') ++ (x &&& x') ++ (plen &&& plen') ++ (rsv &&& rsv') ++ (arg &&& arg') := by
    simp only [BitVec.and_append]
  exact fields

/-- Two headers are equal when their fields are. -/
theorem mkHeader_inj {op x op' x' : BitVec 8} {plen plen' : BitVec 16} {rsv rsv' : BitVec 32} {arg arg' : BitVec 64} :
    mkHeader op x plen rsv arg = mkHeader op' x' plen' rsv' arg' ↔
      op = op' ∧ x = x' ∧ plen = plen' ∧ rsv = rsv' ∧ arg = arg' := by
  constructor
  · intro e
    exact ⟨by simpa using congrArg hdrOp e, by simpa using congrArg hdrX e, by simpa using congrArg hdrPlen e,
      by simpa using congrArg hdrRsv e, by simpa using congrArg hdrArg e⟩
  · rintro ⟨rfl, rfl, rfl, rfl, rfl⟩
    rfl

/-- READ's mask on `ARG` selects the bits 63 to 48 that rule R84 of 30_encoding.md fixes to 0. -/
theorem and_readMask_eq_zero_iff (a : BitVec 64) :
    a &&& 0xffff000000000000#64 = 0#64 ↔ a.extractLsb' 48 16 = 0#16 := by
  have masked : a &&& 0xffff000000000000#64 = a.extractLsb' 48 16 ++ 0#48 :=
    calc a &&& 0xffff000000000000#64
        = (a.extractLsb' 48 16 ++ a.extractLsb' 0 48) &&& (BitVec.allOnes 16 ++ 0#48) :=
          congrArg (· &&& _) (BitVec.extractLsb'_append_extractLsb' (w := 16) (len := 48)).symm
      _ = a.extractLsb' 48 16 ++ 0#48 := by rw [BitVec.and_append, BitVec.and_allOnes, BitVec.and_zero]
  rw [masked]
  exact BitVec.append_left_inj (s₂ := 0#16) 0#48

/-- A command holds no more payload than the decoder was given (30_encoding.md rule R81). -/
theorem length_payload_le_of_decode {h : Header} {pay : List Byte} {i : Instr} (hd : decode h pay = .ok i) :
    i.payload.length ≤ pay.length := by
  cases decode_decodesTo hd <;> simp [Instr.payload]

/-- A command decoded from the payload its header frames is well formed (30_encoding.md rules R81 and R82). -/
theorem wellFormed_of_decode_take {h : Header} {pay : List Byte} {i : Instr}
    (hd : decode h (pay.take (hdrPlen h).toNat) = .ok i) : i.WellFormed :=
  calc i.payload.length ≤ (pay.take (hdrPlen h).toNat).length := length_payload_le_of_decode hd
    _ ≤ (hdrPlen h).toNat := List.length_take_le ..
    _ < 65536 := (hdrPlen h).isLt

namespace Machine

/-- A row of the opcode table, its mask and match given by fields, compares each field on its own (30_encoding.md
rule R85). -/
theorem matchesRow_mkHeader (h : Header) (op x op' x' : BitVec 8) (plen plen' : BitVec 16) (rsv rsv' : BitVec 32)
    (arg arg' : BitVec 64) :
    matchesRow h (mkHeader op x plen rsv arg, mkHeader op' x' plen' rsv' arg') = true ↔
      hdrOp h &&& op = op' ∧ hdrX h &&& x = x' ∧ hdrPlen h &&& plen = plen' ∧ hdrRsv h &&& rsv = rsv' ∧
        hdrArg h &&& arg = arg' := by
  rw [matchesRow, beq_iff_eq, ← mkHeader_inj, ← mkHeader_and, mkHeader_fields]

/-- The opcode table with each mask and match cut into the fields of 30_encoding.md rule R80. -/
theorem opcodeRows_eq_mkHeader : opcodeRows =
    [(mkHeader 0xff 0xff 0 0xffffffff 0xffffffffffffffff, mkHeader 0x01 0 0 0 0),
     (mkHeader 0xff 0xff 0 0xffffffff 0xffffffffffffffff, mkHeader 0x02 0 0 0 0),
     (mkHeader 0xff 0xff 0xffff 0xffffffff 0xffff000000000000, mkHeader 0x10 0 0 0 0),
     (mkHeader 0xff 0xff 0xffff 0xffffffff 0xffffffffffffffff, mkHeader 0x11 0 0 0 0),
     (mkHeader 0xff 0 0 0 0, mkHeader 0x20 0 0 0 0),
     (mkHeader 0xff 0 0 0 0, mkHeader 0x21 0 0 0 0),
     (mkHeader 0xff 0 0 0 0, mkHeader 0x22 0 0 0 0),
     (mkHeader 0xff 0xff 0xffff 0xffffffff 0xffffffffffffffff, mkHeader 0x30 0 0 0 0),
     (mkHeader 0xff 0xff 0xffff 0xffffffff 0xffffffffffffffff, mkHeader 0x31 0 0 0 0),
     (mkHeader 0xff 0xff 0xffff 0xffffffff 0xffffffffffffffff, mkHeader 0x32 0 0 0 0),
     (mkHeader 0xff 0xff 0xffff 0xffffffff 0, mkHeader 0x33 0 0 0 0)] := by decide

/-- The legal headers by their fields: an assigned `OP` and the fixed fields of its row (30_encoding.md rules R84 to
R86). -/
theorem legalHeader_iff (h : Header) : legalHeader h = true ↔
    (hdrOp h = 0x01#8 ∧ fixedKeyLoad h = true) ∨ (hdrOp h = 0x02#8 ∧ fixedKeyLoad h = true) ∨
    (hdrOp h = 0x10#8 ∧ (fixedNoPayload h && fixedReadArg h) = true) ∨
    (hdrOp h = 0x11#8 ∧ (fixedNoPayload h && hdrArg h == 0) = true) ∨
    hdrOp h = 0x20#8 ∨ hdrOp h = 0x21#8 ∨ hdrOp h = 0x22#8 ∨
    (hdrOp h = 0x30#8 ∧ (fixedNoPayload h && hdrArg h == 0) = true) ∨
    (hdrOp h = 0x31#8 ∧ (fixedNoPayload h && hdrArg h == 0) = true) ∨
    (hdrOp h = 0x32#8 ∧ (fixedNoPayload h && hdrArg h == 0) = true) ∨
    (hdrOp h = 0x33#8 ∧ fixedNoPayload h = true) := by
  have ones8 (b : BitVec 8) : b &&& 0xff#8 = b := BitVec.and_allOnes
  have ones16 (b : BitVec 16) : b &&& 0xffff#16 = b := BitVec.and_allOnes
  have ones32 (b : BitVec 32) : b &&& 0xffffffff#32 = b := BitVec.and_allOnes
  have ones64 (b : BitVec 64) : b &&& 0xffffffffffffffff#64 = b := BitVec.and_allOnes
  simp [legalHeader, opcodeRows_eq_mkHeader, matchesRow_mkHeader, ones8, ones16, ones32, ones64,
    and_readMask_eq_zero_iff, fixedKeyLoad, fixedNoPayload, fixedReadArg, and_assoc]

/-- What decodes matches a row of the opcode table (30_encoding.md rule R85). -/
theorem legalHeader_of_decode {h : Header} {pay : List Byte} {i : Instr} (hd : decode h pay = .ok i) :
    legalHeader h = true := by
  rw [legalHeader_iff]
  cases decode_decodesTo hd <;> simp_all

/-- An illegal header does not decode, whatever its payload (30_encoding.md rule R86). -/
theorem decode_eq_error_of_illegal {h : Header} (pay : List Byte) (hl : legalHeader h = false) :
    ∃ e, decode h pay = .error e := by
  cases hd : decode h pay with
  | error e => exact ⟨e, rfl⟩
  | ok i => simp [legalHeader_of_decode hd] at hl

/-- The acceptance written out for a CMD that is known: the header latched, header and payload taken and recorded
(30_encoding.md rule R81, 10_state.md rule R32). -/
theorem State.accept_eq {s : State} {h : Header} {rest : List Header} (hc : s.io.cmd = h :: rest) :
    s.accept h = { s with
      st := { s.st with cmd := h }
      io := { s.io with
        cmd := rest
        pay := s.io.pay.drop (hdrPlen h).toNat
        trace := s.io.trace ++ [.accept h (s.io.pay.take (hdrPlen h).toNat)] } } := by
  rw [State.accept, hc, List.tail_cons]

/-- In `IDLE` the step runs the header at the front of CMD with its complete payload, after its acceptance
(30_encoding.md rule R81). -/
theorem step_eq_runCommand {s : State} {h : Header} {rest : List Header} (hfree : Free s) (hidle : s.st.fsm = .idle)
    (hc : s.io.cmd = h :: rest) (hp : (hdrPlen h).toNat ≤ s.io.pay.length) :
    step s = runCommand (decode h (s.io.pay.take (hdrPlen h).toNat)) (s.accept h) := by
  obtain ⟨hrst, hstalled⟩ := hfree
  rw [step_of_free hrst hstalled]
  simp only [blockStep, hidle, idleStep, hc, if_neg (Nat.not_lt.mpr hp)]

/-- Settles O9: the step runs what was decoded, and the framed payload fits `PLEN`. -/
theorem stepRunsDecodedCommand : Obligations.StepRunsDecodedCommand := by
  intro s h rest i hfree hidle hc hp hd
  refine ⟨wellFormed_of_decode_take hd, ?_⟩
  rw [step_eq_runCommand hfree hidle hc hp, hd, ← State.accept_eq hc]
  rfl

/-- Settles O8: an illegal header does not decode, so the step raises `ILLEGAL_COMMAND` after its acceptance. -/
theorem illegalHeaderCompletes : Obligations.IllegalHeaderCompletes := by
  intro s h rest hfree hidle hc hp hl
  obtain ⟨e, hd⟩ := decode_eq_error_of_illegal (s.io.pay.take (hdrPlen h).toNat) hl
  refine ⟨(s.accept h).raise .illegalCommand, ?_, ?_, rfl, ?_⟩
  · rw [step_eq_runCommand hfree hidle hc hp, hd]
    rfl
  · simp [hidle]
  · simp [hc]

end Machine

end Sys2Proof
end

section
/-! PROOFS. Family 10_state.md: the invariant of the block's record, by what it asks in each state of the
sequencer. -/

namespace Sys2Proof.Machine

/-- The part of `BlockInv` that speaks of the cipher alone, whatever the sequencer does (10_state.md rule R37,
41_keystream_engine.md rule R125). -/
structure CipherInv (s : State) : Prop where
  initKey : s.st.init = true → s.st.keyValid = true ∧ s.st.rk = keyExpansion s.st.key
  initCtr : s.st.init = false → s.st.ctr = ofBE16 0
  ctrBound : be16 s.st.ctr < 2 ^ s.ctrIncBits.val

theorem BlockInv.cipher {s : State} (hi : BlockInv s) : CipherInv s := { hi with }

/-- The bytes of the fill are no part of the cipher (10_state.md rule R26). -/
theorem CipherInv.appendFill {s : State} (hc : CipherInv s) (b : List Byte) : CipherInv (s.appendFill b) where
  initKey := by simpa using hc.initKey
  initCtr := by simpa using hc.initCtr
  ctrBound := by simpa using hc.ctrBound

/-- KSBLOCK of an initialised cipher advances the counter within its width (41_keystream_engine.md rules R126 and
R127). -/
theorem CipherInv.ksBlock {s : State} (hc : CipherInv s) (hinit : s.st.init = true) : CipherInv s.ksBlock where
  initKey := by simpa using hc.initKey
  initCtr := by simp [hinit]
  ctrBound := by simpa [be16_inc_of_lt s.ctrIncBits.property.2 hc.ctrBound] using Nat.mod_lt _ (by positivity)

/-- INIT of a loaded key keeps the cipher's invariant (41_keystream_engine.md rule R125). -/
theorem CipherInv.ensureInit {s : State} (hc : CipherInv s) (hk : s.st.keyValid = true) : CipherInv s.ensureInit := by
  cases h : s.st.init with
  | true => rwa [State.ensureInit_of_init h]
  | false =>
    rw [State.ensureInit_of_not_init h]
    exact
      { initKey := fun _ => ⟨hk, rfl⟩
        initCtr := fun _ => rfl
        ctrBound := by simp [be16_ofBE16] }

/-- Between commands and in a control command the fill is empty and no request is outstanding (10_state.md rules R31
and R38); with that and the cipher's invariant the block has its invariant. -/
theorem blockInv_of_idle {t : State} (hf : t.st.fsm = .idle ∨ t.st.fsm = .ctlWait) (hn : t.st.fcnt = 0)
    (hq : t.st.req = 0) (ho : t.st.produced.toNat ≤ t.st.count.toNat + 15) (hc : CipherInv t) : BlockInv t :=
  { hc with
    fillBound := by omega
    request := .inl hq
    idleEmpty := fun _ => hn
    filling := fun h => by simp [h] at hf
    blockReady := fun h => by rcases h with h | h <;> simp [h] at hf
    reading := fun h => by rcases h with h | h | h <;> simp [h] at hf
    overshoot := ho }

/-- What `BlockInv` asks in `FILLING` (10_state.md rules R26 and R31, 42_reader.md rules R142 and R143). -/
theorem blockInv_of_filling {t : State} (hf : t.st.fsm = .filling) (hn : t.st.fcnt < 16)
    (hq : t.st.req = 0 ∨ t.st.req = 16 - t.st.fcnt) (he : t.st.eof = false) (hk : t.st.keyValid = true)
    (hinit : t.st.init = true) (hp : t.st.produced.toNat < t.st.count.toNat) (hc : CipherInv t) : BlockInv t :=
  { hc with
    fillBound := by omega
    request := hq.imp_right fun h => ⟨hf, h⟩
    idleEmpty := fun h => by simp [hf] at h
    filling := fun _ => ⟨he, hn⟩
    blockReady := fun h => by simp [hf] at h
    reading := fun _ => ⟨hk, hinit, hp⟩
    overshoot := by omega }

/-- What `BlockInv` asks while a fetched block is decrypted and appended (42_reader.md rule R148). -/
theorem blockInv_of_block {t : State} (hf : t.st.fsm = .decrypting ∨ t.st.fsm = .appending) (hn : t.st.fcnt ≤ 16)
    (hready : 1 ≤ t.st.fcnt ∧ (t.st.eof = false → t.st.fcnt = 16)) (hq : t.st.req = 0) (hk : t.st.keyValid = true)
    (hinit : t.st.init = true) (hp : t.st.produced.toNat < t.st.count.toNat) (hc : CipherInv t) : BlockInv t :=
  { hc with
    fillBound := hn
    request := .inl hq
    idleEmpty := fun h => by rcases h with h | h <;> simp [h] at hf
    filling := fun h => by simp [h] at hf
    blockReady := fun _ => hready
    reading := fun _ => ⟨hk, hinit, hp⟩
    overshoot := by omega }

/-- Outside `FILLING` no read request is outstanding (10_state.md rule R31). -/
theorem BlockInv.req_eq_zero {s : State} (hi : BlockInv s) (hf : s.st.fsm ≠ .filling) : s.st.req = 0 :=
  hi.request.resolve_right fun h => hf h.1

/-- A response within the source contract, at most the outstanding request, fits in the fill (10_state.md rules R26 and
R31, 20_memory.md rule R54). -/
theorem BlockInv.fill_fits {s : State} (hi : BlockInv s) (hq : s.st.req ≠ 0) {b : List Byte}
    (hb : readContract s.st.req (.data b) = true) : 1 ≤ b.length ∧ s.st.fcnt + b.length ≤ 16 := by
  obtain ⟨-, hreq⟩ := hi.request.resolve_left hq
  simp [readContract] at hb
  omega

/-- The 64-bit `produced` does not wrap: a READ's count has 48 bits (10_state.md rule R29). -/
theorem BlockInv.produced_emitBlock {s : State} (hi : BlockInv s) (hf : s.st.fsm = .appending) :
    s.emitBlock.st.produced.toNat = s.st.produced.toNat + s.st.fcnt := by
  have hcount := s.st.count.isLt
  have hbound := hi.fillBound
  obtain ⟨-, -, hlt⟩ := hi.reading (.inr (.inr hf))
  simp [BitVec.toNat_add]
  omega

/-- Whichever way LOOP_TEST goes, the block has its invariant after it (42_reader.md rules R142 and R143). -/
theorem LoopTo.blockInv {s t : State} (hl : LoopTo s t) (hn : s.st.fcnt = 0) (hq : s.st.req = 0)
    (hk : s.st.keyValid = true) (ho : s.st.produced.toNat ≤ s.st.count.toNat + 15) (hc : CipherInv s) : BlockInv t := by
  have hc' := hc.ensureInit hk
  cases hl with
  | done h => exact blockInv_of_idle (.inl rfl) hn hq ho { hc with }
  | ended h he =>
    refine blockInv_of_idle (.inl rfl) rfl ?_ ?_ { hc' with }
    · simp [State.ensureInit_st, hq]
    · simpa [State.ensureInit_st] using ho
  | fetch h he => refine blockInv_of_filling rfl ?_ (.inl ?_) ?_ ?_ ?_ ?_ { hc' with } <;> simp [State.ensureInit_st, *]

/-- Every command leaves the block with its invariant (30_encoding.md rule R84, 60_exceptions.md rule R181). -/
theorem CommandTo.blockInv {s t : State} {i : Option Instr} (ht : CommandTo s i t) (hi : BlockInv s)
    (hf : s.st.fsm = .idle) : BlockInv t := by
  have hn := hi.idleEmpty (.inl hf)
  have hq : s.st.req = 0 := hi.req_eq_zero (by simp [hf])
  cases ht with
  | raised c => exact blockInv_of_idle (.inl rfl) hn hq hi.overshoot { hi with }
  | loaded k h =>
    have hinit : s.st.init ≠ true := fun hinit => absurd (hi.initKey hinit).1 (by simp [h])
    exact blockInv_of_idle (.inl rfl) hn hq hi.overshoot { hi with initKey := fun h => absurd h hinit }
  | passed op arg _ => exact blockInv_of_idle (.inr rfl) hn hq hi.overshoot { hi with }
  | read count hk hl => exact hl.blockInv hn hq hk (by simp) { hi with }

/-- Every read response leaves the block with its invariant (42_reader.md rules R145 to R147). -/
theorem ReadRespTo.blockInv {s t : State} {r : ReadResp} (ht : ReadRespTo s r t) (hi : BlockInv s)
    (hf : s.st.fsm = .filling) (hq : s.st.req ≠ 0) (hr : readContract s.st.req r = true) : BlockInv t := by
  obtain ⟨he, hn⟩ := hi.filling hf
  obtain ⟨hk, hinit, hp⟩ := hi.reading (.inl hf)
  have hc : CipherInv (s.takeReadResp r) := { hi with }
  cases ht with
  | @full b h =>
    refine blockInv_of_block (.inl rfl) ?_ ⟨?_, ?_⟩ rfl ?_ ?_ ?_ { hc.appendFill b with } <;> simp [*]
  | @short b h =>
    have hfit := hi.fill_fits hq hr
    refine blockInv_of_filling ?_ ?_ (.inl rfl) ?_ ?_ ?_ ?_ (hc.appendFill b) <;> simp [*]
    omega
  | ended _ h => exact blockInv_of_idle (.inl rfl) h rfl hi.overshoot { hc with }
  | partialBlock _ h =>
    exact blockInv_of_block (.inl rfl) hn.le ⟨Nat.pos_of_ne_zero h, fun h => by cases h⟩ rfl hk hinit hp { hc with }
  | error => exact blockInv_of_idle (.inl rfl) rfl rfl hi.overshoot { hc with }

/-- After reset the block has its invariant (70_reset_and_hazards.md rule R200). -/
theorem assertReset_blockInv (s : State) : BlockInv s.assertReset := by
  have hzero : zero16 = ofBE16 0 := by decide
  refine blockInv_of_idle (.inl rfl) rfl rfl (by simp [BlockState.reset]) ?_
  exact
    { initKey := fun h => by cases h
      initCtr := fun _ => hzero
      ctrBound := by simp [BlockState.reset, hzero, be16_ofBE16] }

/-- Settles O40: reset has the invariant, and each kind of step keeps it. -/
theorem stepKeepsBlockInv : Obligations.StepKeepsBlockInv := by
  intro s t hi h
  cases step_stepTo h with
  | reset _ => exact assertReset_blockInv s
  | wait _ => exact hi
  | command h rest _ hf _ _ ht => exact ht.blockInv { hi with } hf
  | issue _ hf _ =>
    obtain ⟨he, hn⟩ := hi.filling hf
    obtain ⟨hk, hinit, hp⟩ := hi.reading (.inl hf)
    exact blockInv_of_filling hf hn (.inr rfl) he hk hinit hp { hi with }
  | response r _ _ hf hq _ hc ht => exact ht.blockInv hi hf hq hc
  | keystream _ hf =>
    have hq := hi.req_eq_zero (by simp [hf])
    obtain ⟨hk, hinit, hp⟩ := hi.reading (.inr (.inl hf))
    refine blockInv_of_block (.inr rfl) ?_ ?_ ?_ ?_ ?_ ?_ { hi.cipher.ksBlock hinit with }
    · simpa using hi.fillBound
    · simpa using hi.blockReady (.inl hf)
    all_goals simpa
  | append _ hf ht =>
    have hprod := hi.produced_emitBlock hf
    have hbound := hi.fillBound
    obtain ⟨hk, -, hp⟩ := hi.reading (.inr (.inr hf))
    refine ht.blockInv rfl (hi.req_eq_zero (by simp [hf])) hk ?_ { hi with }
    have hcount : s.emitBlock.st.count = s.st.count := rfl
    rw [hcount]
    omega
  | answerOk _ _ _ hf _ =>
    exact blockInv_of_idle (.inl rfl) (hi.idleEmpty (.inr hf)) (hi.req_eq_zero (by simp [hf])) hi.overshoot { hi with }
  | answerError _ _ _ hf _ =>
    exact blockInv_of_idle (.inl rfl) (hi.idleEmpty (.inr hf)) (hi.req_eq_zero (by simp [hf])) hi.overshoot { hi with }

end Sys2Proof.Machine
end

section
/-! PROOFS. Family 10_state.md: the invariant of VALUE and what a completed READ reports. -/

namespace Sys2Proof.Machine

/-- `OPE` of a completion word (30_encoding.md rule R88). -/
@[simp] theorem cplOpe_completionWord (c : Status) (op : BitVec 8) (v : Word64) :
    cplOpe (completionWord c op v) = op := by
  apply BitVec.eq_of_getLsbD_eq
  intro i hi
  simp only [cplOpe, completionWord, BitVec.getLsbD_extractLsb', BitVec.getLsbD_append]
  simp [hi, show ¬ 112 + i < 64 by omega, show ¬ 112 + i - 64 < 48 by omega, show 112 + i - 64 - 48 = i by omega]

/-- `VALUE` of a completion word (30_encoding.md rule R88). -/
@[simp] theorem cplValue_completionWord (c : Status) (op : BitVec 8) (v : Word64) :
    cplValue (completionWord c op v) = v := by
  apply BitVec.eq_of_getLsbD_eq
  intro i hi
  simp only [cplValue, completionWord, BitVec.getLsbD_extractLsb', BitVec.getLsbD_append]
  simp [hi]

/-- A completion agrees with the tally when, echoing READ, its VALUE is the number of bytes emitted (30_encoding.md rule
R88, 42_reader.md rules R146 and R151). -/
theorem tallyEvent_cpl {v : Tally} {c : Status} {op : BitVec 8} {value : Word64} {err : Option SrcErr}
    (h : op = 0x10#8 → value.toNat = v.outs) : tallyEvent v (.cpl (completionWord c op value) err) = v := by
  have hagree : (op != 0x10#8 || value.toNat == v.outs) = true := by
    by_cases hop : op = 0x10#8 <;> simp [hop, h]
  simp [tallyEvent, hagree]

/-- A command completes in agreement with the tally when, being READ, it reports the bytes emitted. -/
theorem tally_complete {s : State} {c : Status} {v : Word64} {err : Option SrcErr}
    (h : hdrOp s.st.cmd = 0x10#8 → v.toNat = (tally s.io.trace).outs) :
    tally (s.complete c v err).io.trace = tally s.io.trace := by
  simp [tallyEvent_cpl h]

/-- Emitting a block adds its bytes to the tally (42_reader.md rule R149). -/
theorem tally_emitBlock {s : State} (h : s.st.fcnt ≤ 16) :
    tally s.emitBlock.io.trace = { tally s.io.trace with outs := (tally s.io.trace).outs + s.st.fcnt } := by
  rw [State.emitBlock_io, tally, List.foldl_append, ← tally, foldl_tallyEvent_out, length_plainBytes h]

/-- LOOP_TEST moves neither the bytes emitted nor end of stream (42_reader.md rule R142). -/
theorem LoopTo.produced_eq {s t : State} (hl : LoopTo s t) : t.st.produced = s.st.produced := by
  cases hl <;> simp [State.ensureInit_st]

theorem LoopTo.eof_eq {s t : State} (hl : LoopTo s t) : t.st.eof = s.st.eof := by
  cases hl <;> simp [State.ensureInit_st]

/-- LOOP_TEST completes with VALUE `produced`, which agrees with a tally of that many bytes (42_reader.md rule R151). -/
theorem LoopTo.tally_eq {s t : State} (hl : LoopTo s t) (h : s.st.produced.toNat = (tally s.io.trace).outs) :
    tally t.io.trace = tally s.io.trace := by
  cases hl <;> simp [tallyEvent_cpl, h]

/-- A read response emits nothing, and completes with VALUE `produced` where it completes (42_reader.md rules R145 to
R147). -/
theorem ReadRespTo.tally_eq {s t : State} {r : ReadResp} (ht : ReadRespTo s r t)
    (h : s.st.produced.toNat = (tally s.io.trace).outs) : tally t.io.trace = tally s.io.trace := by
  have hresp : tallyEvent (tally s.io.trace) (.readResp r) = tally s.io.trace := rfl
  cases ht <;> simp [tallyEvent_cpl, hresp, h]

theorem ReadRespTo.produced_eq {s t : State} {r : ReadResp} (ht : ReadRespTo s r t) :
    t.st.produced = s.st.produced := by
  cases ht <;> simp

theorem ReadRespTo.count_eq {s t : State} {r : ReadResp} (ht : ReadRespTo s r t) : t.st.count = s.st.count := by
  cases ht <;> simp

/-- Between commands the invariant of VALUE is that the completions so far agree. -/
theorem valueInv_of_idle {t : State} (hf : t.st.fsm = .idle) (ha : (tally t.io.trace).agree = true) : ValueInv t where
  agree := ha
  produced := fun h => by simp [hf] at h
  whole := fun h => by simp [hf] at h
  control := fun h => by simp [hf] at h

/-- Completing in agreement with the tally keeps the invariant of VALUE. -/
theorem valueInv_complete {s : State} {c : Status} {v : Word64} {err : Option SrcErr}
    (ha : (tally s.io.trace).agree = true) (h : hdrOp s.st.cmd = 0x10#8 → v.toNat = (tally s.io.trace).outs) :
    ValueInv (s.complete c v err) :=
  valueInv_of_idle rfl (by rw [tally_complete h, ha])

/-- LOOP_TEST keeps the invariant of VALUE: it fetches on only after whole blocks (42_reader.md rule R151). -/
theorem LoopTo.valueInv {s t : State} (hl : LoopTo s t) (ha : (tally s.io.trace).agree = true)
    (hp : s.st.produced.toNat = (tally s.io.trace).outs) (hw : s.st.eof = false → 16 ∣ s.st.produced.toNat) :
    ValueInv t := by
  have htally := hl.tally_eq hp
  have hprod := hl.produced_eq
  have ha' : (tally t.io.trace).agree = true := by rw [htally, ha]
  cases hl with
  | done _ => exact valueInv_of_idle rfl ha'
  | ended _ _ => exact valueInv_of_idle rfl ha'
  | fetch _ he =>
    exact
      { agree := ha'
        produced := fun _ => by rw [hprod, htally, hp]
        whole := fun _ => by rw [hprod]; exact hw he
        control := fun h => by cases h }

/-- A command just accepted keeps the invariant of VALUE: nothing is emitted yet, and only READ echoes its `OP`. -/
theorem CommandTo.valueInv {s t : State} {i : Option Instr} (ht : CommandTo s i t)
    (ha : (tally s.io.trace).agree = true) (hz : (tally s.io.trace).outs = 0)
    (hop : ∀ j, i = some j → hdrOp s.st.cmd = opcode j) : ValueInv t := by
  cases ht with
  | raised c => exact valueInv_complete ha fun _ => hz.symm
  | loaded k _ => exact valueInv_complete (s := s.loadKey k) ha fun _ => hz.symm
  | @passed j op arg hne =>
    exact
      { agree := by simpa [tallyEvent] using ha
        produced := fun h => by simp at h
        whole := fun h => by simp at h
        control := fun _ => by simpa [hop j rfl] using hne }
  | read count _ hl => exact hl.valueInv ha hz.symm (fun _ => by simp)

/-- A read response keeps the invariant of VALUE (42_reader.md rules R145 to R147). -/
theorem ReadRespTo.valueInv {s t : State} {r : ReadResp} (ht : ReadRespTo s r t) (hv : ValueInv s)
    (hf : s.st.fsm = .filling) : ValueInv t := by
  have hp := hv.produced (.inl hf)
  have htally := ht.tally_eq hp
  have hprod := ht.produced_eq
  refine ⟨by rw [htally, hv.agree], fun _ => by rw [hprod, htally, hp], fun _ => by rw [hprod]; exact hv.whole (.inl hf),
    fun h => ?_⟩
  cases ht <;> simp [hf] at h

/-- After a block is emitted `produced` is the tally of the READ, whole blocks before end of stream (42_reader.md rules
R148, R149 and R151). -/
theorem ValueInv.emitBlock {s : State} (hv : ValueInv s) (hi : BlockInv s) (hf : s.st.fsm = .appending) :
    s.emitBlock.st.produced.toNat = (tally s.emitBlock.io.trace).outs ∧
      (s.emitBlock.st.eof = false → 16 ∣ s.emitBlock.st.produced.toNat) := by
  have hprod := hi.produced_emitBlock hf
  have hp := hv.produced (.inr (.inr hf))
  have hw := hv.whole (.inr (.inr hf))
  refine ⟨by rw [tally_emitBlock hi.fillBound, hprod, hp], fun he => ?_⟩
  have hfull : s.st.fcnt = 16 := (hi.blockReady (.inr hf)).2 he
  omega

/-- Settles O48: each kind of step keeps the invariant of VALUE. -/
theorem stepKeepsValueInv : Obligations.StepKeepsValueInv := by
  intro s t hi hv h
  cases step_stepTo h with
  | reset _ => exact valueInv_of_idle rfl (by simpa [tallyEvent] using hv.agree)
  | wait _ => exact hv
  | command h rest _ _ _ _ ht =>
    refine ht.valueInv (by simpa [tallyEvent] using hv.agree) (by simp [tallyEvent]) fun j hj => ?_
    cases hd : decode h (s.io.pay.take (hdrPlen h).toNat) with
    | ok k =>
      rw [hd] at hj
      cases hj
      exact opcode_of_decode hd
    | error e =>
      rw [hd] at hj
      cases hj
  | issue _ hf _ =>
    have htally : tally s.issueRead.io.trace = tally s.io.trace := by simp [tallyEvent]
    exact
      { agree := by rw [htally, hv.agree]
        produced := fun h => by rw [htally]; exact hv.produced h
        whole := hv.whole
        control := hv.control }
  | response r _ _ hf _ _ _ ht => exact ht.valueInv hv hf
  | keystream _ hf =>
    exact
      { agree := hv.agree
        produced := fun _ => by simpa using hv.produced (.inr (.inl hf))
        whole := fun _ => by simpa using hv.whole (.inr (.inl hf))
        control := fun h => by cases h }
  | append _ hf ht =>
    obtain ⟨hp, hw⟩ := hv.emitBlock hi hf
    exact ht.valueInv (by rw [tally_emitBlock hi.fillBound]; exact hv.agree) hp hw
  | answerOk v _ _ hf _ =>
    exact valueInv_complete (by simpa [tallyEvent] using hv.agree) fun hop => absurd hop (hv.control hf)
  | answerError e _ _ hf _ =>
    exact valueInv_complete (by simpa [tallyEvent] using hv.agree) fun hop => absurd hop (hv.control hf)

/-- A READ that a read response completes: end of stream on an empty fill, or an upstream error (42_reader.md rules R146
and R147). -/
theorem ReadRespTo.completion {s t : State} {r : ReadResp} (ht : ReadRespTo s r t) (hf : s.st.fsm = .filling)
    (hidle : t.st.fsm = .idle) :
    (t.st.eof = true ∧ t.io.trace = s.io.trace ++ [.readResp r] ++ [cplEvent s .ok s.st.produced none]) ∨
      ∃ e, r = .error e ∧
        t.io.trace = s.io.trace ++ [.readResp r] ++ [cplEvent s .sourceIoFailure s.st.produced (some e)] := by
  cases ht with
  | full _ => cases hidle
  | short _ => simp [hf] at hidle
  | ended _ _ => exact .inl ⟨rfl, rfl⟩
  | partialBlock _ _ => cases hidle
  | error => exact .inr ⟨_, rfl, rfl⟩

/-- A READ that LOOP_TEST completes: its count is reached, or the stream has ended (42_reader.md rules R142 and R143). -/
theorem LoopTo.completion {s t : State} (hl : LoopTo s t) (hidle : t.st.fsm = .idle) :
    t.io.trace = s.io.trace ++ [cplEvent s .ok s.st.produced none] ∧
      (t.st.count.toNat ≤ s.st.produced.toNat ∨ s.st.produced.toNat < t.st.count.toNat ∧ s.st.eof = true) := by
  cases hl with
  | done h => exact ⟨rfl, .inl h⟩
  | ended h he => simp [State.ensureInit_st, cplEvent, h, he]
  | fetch _ _ => cases hidle

/-- Settles O17: a READ completes at end of stream on an empty fill, on an upstream error, or at LOOP_TEST after a block. -/
theorem completedReadReportsProduced : Obligations.CompletedReadReportsProduced := by
  intro s t hi hv hfree hreading h hidle
  have hp := hv.produced hreading
  have hw := hv.whole hreading
  obtain ⟨-, -, hlt⟩ := hi.reading hreading
  have hover := (stepKeepsBlockInv s t hi h).overshoot
  cases step_stepTo h with
  | reset hr => simp [hfree.1] at hr
  | wait _ => simp [hidle] at hreading
  | command _ _ _ hf _ _ _ => simp [hf] at hreading
  | issue _ hf _ => simp [hf] at hidle
  | response r _ _ hf _ _ _ ht =>
    rw [ht.tally_eq hp, ht.produced_eq]
    refine ⟨hp, fun hne => absurd (Nat.mod_eq_zero_of_dvd hw) hne, [.readResp r], ?_⟩
    rcases ht.completion hf hidle with ⟨he, htrace⟩ | ⟨e, rfl, htrace⟩
    · exact ⟨_, _, htrace, .inl ⟨rfl, rfl, .inr ⟨by rwa [ht.count_eq], he⟩⟩⟩
    · exact ⟨_, _, htrace, .inr ⟨rfl, e, rfl, rfl⟩⟩
  | keystream _ _ => cases hidle
  | append _ hf ht =>
    obtain ⟨hp', hw'⟩ := hv.emitBlock hi hf
    rw [ht.produced_eq] at hover
    rw [ht.tally_eq hp', ht.produced_eq, ht.eof_eq]
    obtain ⟨htrace, hcount⟩ := ht.completion hidle
    refine ⟨hp', fun hne => ?_, (plainBytes s.st).map .out, .ok, none, htrace, .inl ⟨rfl, rfl, ?_⟩⟩
    · by_contra he
      exact hne (Nat.mod_eq_zero_of_dvd (hw' (by simpa using he)))
    · exact hcount.imp_left fun hle => ⟨hle, by omega⟩
  | answerOk _ _ _ hf _ => simp [hf] at hreading
  | answerError _ _ _ hf _ => simp [hf] at hreading

end Sys2Proof.Machine
end

section
/-! PROOFS. Family 10_state.md: the invariant of the streams: each operation on the record of transfers or on the
block's record keeps it, and every step is made of these. -/

namespace Sys2Proof.Machine

/-- The completion of LOOP_TEST belongs to no stream (42_reader.md rule R142). -/
theorem LoopTo.stream_eq {s t : State} (hl : LoopTo s t) : stream t.io.trace = stream s.io.trace := by
  cases hl <;> simp [streamEvent]

/-- Steps that compute no keystream block and emit no byte keep the invariant of the streams: they leave output,
decrypted bytes and counter, change the round keys only before INIT, and keep the fill what was received. -/
theorem StreamInv.of_stream_eq {s t : State} (hs : StreamInv s)
    (hout : (stream t.io.trace).out = (stream s.io.trace).out)
    (hdec : (stream t.io.trace).dec = (stream s.io.trace).dec)
    (hfill : (stream t.io.trace).fill = t.st.fbuf.toList.take t.st.fcnt)
    (hm : t.ctrIncBits = s.ctrIncBits) (hctr : t.st.ctr = s.st.ctr)
    (hinit : s.st.init = true → t.st.init = true ∧ t.st.rk = s.st.rk)
    (hsf : s.st.fsm ≠ .appending) (htf : t.st.fsm ≠ .appending)
    (halign : t.st.eof = false ∨ t.st.fsm = .decrypting → s.st.eof = false ∨ s.st.fsm = .decrypting) :
    StreamInv t where
  fill := hfill
  lengths := by rw [hout, hdec, hs.lengths]
  bytes := fun d hd => by
    rw [hout] at hd
    have hi : s.st.init = true := by
      by_contra hi
      simp [hs.quiet (by simpa using hi)] at hd
    rw [hout, hdec, hm, (hinit hi).2]
    exact hs.bytes d hd
  aligned := fun h => by
    rw [hout]
    exact hs.aligned ((halign (h.imp_right fun h => h.resolve_right htf)).imp_right .inl)
  counter := by
    have hc := hs.counter
    rw [if_neg hsf] at hc
    rw [hctr, hout, hm, if_neg htf, hc]
  current := fun h => absurd h htf
  quiet := fun h => by
    rw [hout]
    exact hs.quiet (by
      by_contra hi
      simp [(hinit (by simpa using hi)).1] at h)

/-- Recording transfers that belong to no stream keeps the invariant of the streams. -/
theorem StreamInv.log {s : State} (hs : StreamInv s) {es : List Event}
    (h : es.foldl streamEvent (stream s.io.trace) = stream s.io.trace) : StreamInv (s.log es) := by
  have hstream : stream (s.log es).io.trace = stream s.io.trace := by rw [State.log_io, stream_append, h]
  exact
    { fill := by rw [hstream]; exact hs.fill
      lengths := by rw [hstream]; exact hs.lengths
      bytes := by rw [hstream]; exact hs.bytes
      aligned := by rw [hstream]; exact hs.aligned
      counter := by rw [hstream]; exact hs.counter
      current := by rw [hstream]; exact hs.current
      quiet := by rw [hstream]; exact hs.quiet }

/-- Moving the sequencer outside `APPENDING` keeps the invariant of the streams. -/
theorem StreamInv.goto {s : State} (hs : StreamInv s) {f : Fsm} (hsf : s.st.fsm ≠ .appending) (hf : f ≠ .appending)
    (halign : s.st.eof = false ∨ f = .decrypting → s.st.eof = false ∨ s.st.fsm = .decrypting) :
    StreamInv (s.goto f) where
  fill := hs.fill
  lengths := hs.lengths
  bytes := hs.bytes
  aligned := fun h => hs.aligned ((halign (h.imp_right fun h => h.resolve_right hf)).imp_right .inl)
  counter := by simpa [hsf, hf] using hs.counter
  current := fun h => absurd h hf
  quiet := hs.quiet

/-- Completing a command keeps the invariant of the streams. -/
theorem StreamInv.complete {s : State} (hs : StreamInv s) (hf : s.st.fsm ≠ .appending) (c : Status) (v : Word64)
    (err : Option SrcErr) : StreamInv (s.complete c v err) :=
  (hs.log rfl).goto hf (by decide) (.imp_right fun h => by cases h)

/-- LOOP_TEST ends the command or starts the next fetch, either with an empty fill. -/
theorem LoopTo.fsm_eq {s t : State} (hl : LoopTo s t) : t.st.fsm = .idle ∨ t.st.fsm = .filling := by
  cases hl <;> simp

theorem LoopTo.fcnt_eq_zero {s t : State} (hl : LoopTo s t) (h : s.st.fcnt = 0) : t.st.fcnt = 0 := by
  cases hl <;> simp [h]

theorem LoopTo.ctrIncBits_eq {s t : State} (hl : LoopTo s t) : t.ctrIncBits = s.ctrIncBits := by
  cases hl <;> simp

/-- INIT sets the counter to the zero IV, where it stands before INIT (41_keystream_engine.md rule R125, 10_state.md
rule R37). -/
theorem LoopTo.ctr_eq {s t : State} (hl : LoopTo s t) (h : s.st.init = false → s.st.ctr = ofBE16 0) :
    t.st.ctr = s.st.ctr := by
  cases hi : s.st.init <;> cases hl <;> simp [State.ensureInit_st, hi, h]

/-- INIT runs once: an initialised cipher keeps its round keys (10_state.md rule R23). -/
theorem LoopTo.init_rk_eq {s t : State} (hl : LoopTo s t) (h : s.st.init = true) :
    t.st.init = true ∧ t.st.rk = s.st.rk := by
  cases hl <;> simp [State.ensureInit_of_init, h]

/-- LOOP_TEST keeps the invariant of the streams, whichever state of the sequencer it is run in (42_reader.md rules R142
and R143). -/
theorem LoopTo.streamInv {s t : State} (hl : LoopTo s t) (hs : StreamInv (s.goto .idle)) (hn : s.st.fcnt = 0)
    (hc : s.st.init = false → s.st.ctr = ofBE16 0) : StreamInv t := by
  have hstream := hl.stream_eq
  have hfill : (stream s.io.trace).fill = [] := by simpa [hn] using hs.fill
  refine hs.of_stream_eq (by simp [hstream]) (by simp [hstream]) ?_ hl.ctrIncBits_eq (hl.ctr_eq hc) hl.init_rk_eq
    (by simp) ?_ fun h => .inl ?_
  · rw [hstream, hfill, hl.fcnt_eq_zero hn, List.take_zero]
  · rcases hl.fsm_eq with h | h <;> simp [h]
  · rcases hl.fsm_eq with h' | h' <;> simpa [h', hl.eof_eq] using h

/-- Appending a block moves the fill to the decrypted bytes and its plaintext to the output (42_reader.md rule R149). -/
theorem stream_emitBlock {s : State} (hn : s.st.fcnt ≤ 16)
    (hfill : (stream s.io.trace).fill = s.st.fbuf.toList.take s.st.fcnt) :
    stream s.emitBlock.io.trace =
      ⟨(stream s.io.trace).out ++ plainBytes s.st, (stream s.io.trace).dec ++ s.st.fbuf.toList.take s.st.fcnt, []⟩ := by
  rw [State.emitBlock_io, stream_append, foldl_streamEvent_out, hfill, length_plainBytes hn]
  simp

/-- A block appended at a multiple of 16 is byte for byte its ciphertext XORed with its keystream (20_memory.md rule
R60, 41_keystream_engine.md rule R128). -/
theorem byteAt_plainBytes_keystream {st : BlockState} {m n j : Nat} (hn : st.fcnt ≤ 16) (hj : j < st.fcnt)
    (hmod : n % 16 = 0) (hks : st.ks = aes128 st.rk (ofBE16 (n / 16 % 2 ^ m))) :
    byteAt (plainBytes st) j = byteAt (st.fbuf.toList.take st.fcnt) j ^^^ keystreamByte st.rk m (n + j) := by
  have hdiv : (n + j) / 16 = n / 16 := by omega
  have hrem : (n + j) % 16 = j := by omega
  have htake : byteAt (st.fbuf.toList.take st.fcnt) j = byteAt st.fbuf.toList j := by
    simp [byteAt, hj]
  rw [byteAt_plainBytes hj hn, htake, keystreamByte, hdiv, hrem, ← hks]

/-- Emitting a block keeps the invariant of the streams (42_reader.md rule R149). -/
theorem StreamInv.emitBlock {s : State} (hs : StreamInv s) (hi : BlockInv s) (hf : s.st.fsm = .appending) :
    StreamInv (s.emitBlock.goto .idle) := by
  have hfit := hi.fillBound
  obtain ⟨hpos, hfull⟩ := hi.blockReady (.inr hf)
  obtain ⟨-, hinit, -⟩ := hi.reading (.inr (.inr hf))
  have hlen := length_plainBytes hfit
  have hmod := hs.aligned (.inr (.inr hf))
  have hstream : stream (s.emitBlock.goto .idle).io.trace = _ := stream_emitBlock hfit hs.fill
  refine ⟨?fill, ?lengths, ?bytes, ?aligned, ?counter, fun h => ?current, fun h => ?quiet⟩
  case fill => rw [hstream]; simp
  case lengths => rw [hstream]; simp [hs.lengths, hlen, hfit]
  case bytes =>
    intro d hd
    rw [hstream] at hd ⊢
    simp only [List.length_append, hlen] at hd
    by_cases hold : d < (stream s.io.trace).out.length
    · rw [byteAt_append_left hold, byteAt_append_left (hs.lengths ▸ hold)]
      exact hs.bytes d hold
    · obtain ⟨j, rfl⟩ := Nat.exists_eq_add_of_le (Nat.le_of_not_lt hold)
      rw [byteAt_append_right (by omega), byteAt_append_right (by rw [hs.lengths]; omega), hs.lengths,
        Nat.add_sub_cancel_left]
      exact byteAt_plainBytes_keystream hfit (by omega) hmod (hs.current hf)
  case aligned =>
    intro h
    have he : s.st.eof = false := by simpa using h
    rw [hstream, List.length_append, hlen, hfull he]
    omega
  case counter =>
    have hblocks : ((stream s.io.trace).out.length + s.st.fcnt + 15) / 16 =
        ((stream s.io.trace).out.length + 15) / 16 + 1 := by omega
    have hc := hs.counter
    rw [if_pos hf] at hc
    rw [hstream, List.length_append, hlen, hblocks]
    simpa using hc
  case current => cases h
  case quiet => simp [hinit] at h

/-- KSBLOCK computes the keystream block of the block to append and counts it (41_keystream_engine.md rules R127 and
R130). -/
theorem StreamInv.ksBlock {s : State} (hs : StreamInv s) (hi : BlockInv s) (hf : s.st.fsm = .decrypting) :
    StreamInv (s.ksBlock.goto .appending) := by
  obtain ⟨-, hinit, -⟩ := hi.reading (.inr (.inl hf))
  have hmod := hs.aligned (.inr (.inl hf))
  have hblocks : ((stream s.io.trace).out.length + 15) / 16 = (stream s.io.trace).out.length / 16 := by omega
  have hc : be16 s.st.ctr = (stream s.io.trace).out.length / 16 % 2 ^ s.ctrIncBits.val := by
    simpa [hf, hblocks] using hs.counter
  have hctr : s.st.ctr = ofBE16 ((stream s.io.trace).out.length / 16 % 2 ^ s.ctrIncBits.val) := by
    rw [← hc, ofBE16_be16]
  refine ⟨?fill, hs.lengths, hs.bytes, ?aligned, ?counter, ?current, fun h => ?quiet⟩
  case fill => simpa using hs.fill
  case aligned => intro _; exact hmod
  case counter => simp [be16_inc_of_lt s.ctrIncBits.property.2 hi.ctrBound, hc, hblocks]
  case current => intro _; simp [← hctr]
  case quiet => simp [hinit] at h

/-- Every command keeps the invariant of the streams: it computes no keystream block and emits no byte. -/
theorem CommandTo.streamInv {s t : State} {i : Option Instr} (ht : CommandTo s i t) (hs : StreamInv s)
    (hi : BlockInv s) (hf : s.st.fsm = .idle) : StreamInv t := by
  have hf' : s.st.fsm ≠ .appending := by simp [hf]
  cases ht with
  | raised c => exact hs.complete hf' _ _ _
  | loaded k _ =>
    have hkey : StreamInv (s.loadKey k) := { hs with }
    exact hkey.complete hf' _ _ _
  | passed op arg _ => exact (hs.log rfl).goto hf' (by decide) (.imp_right fun h => by cases h)
  | read count _ hl =>
    have hidle : StreamInv (s.goto .idle) := hs.goto hf' (by decide) (.imp_right fun h => by cases h)
    exact hl.streamInv { hidle with } (hi.idleEmpty (.inl hf)) hi.initCtr

/-- `DATA` adds its bytes to the fill of the streams as to the fill buffer (42_reader.md rule R145). -/
theorem StreamInv.onData {s : State} (hs : StreamInv s) (hf : s.st.fsm = .filling) {b : List Byte}
    (hb : s.st.fcnt + b.length ≤ 16) : StreamInv ((s.takeReadResp (.data b)).appendFill b) := by
  have hstream : stream ((s.takeReadResp (.data b)).appendFill b).io.trace =
      { stream s.io.trace with fill := (stream s.io.trace).fill ++ b } := by simp [streamEvent]
  refine hs.of_stream_eq (by rw [hstream]) (by rw [hstream]) ?_ rfl ?_ ?_ ?_ ?_ ?_
  · rw [hstream, hs.fill]
    simpa using (take_writeFill s.st.fbuf hb).symm
  all_goals simp [hf]

/-- An upstream error discards the fill of the streams and of the block (42_reader.md rule R146). -/
theorem StreamInv.onReadError {s : State} (hs : StreamInv s) (hf : s.st.fsm = .filling) (e : SrcErr) :
    StreamInv (s.takeReadResp (.error e)).clearFill := by
  have hstream : stream (s.takeReadResp (.error e)).clearFill.io.trace =
      { stream s.io.trace with fill := [] } := by simp [streamEvent]
  refine hs.of_stream_eq (by rw [hstream]) (by rw [hstream]) (by rw [hstream]; simp) rfl ?_ ?_ ?_ ?_ ?_ <;> simp [hf]

/-- `END` and `NOT_READABLE` belong to no stream (42_reader.md rule R147). -/
theorem StreamInv.takeEnd {s : State} (hs : StreamInv s) {r : ReadResp} (hr : r = .endOfStream ∨ r = .notReadable) :
    StreamInv (s.takeReadResp r) := by
  have hlog : StreamInv (s.log [.readResp r]) := by rcases hr with rfl | rfl <;> exact hs.log rfl
  exact { hlog with }

/-- An answer to a control request belongs to no stream (43_control_commands.md rule R160). -/
theorem StreamInv.takeCtlResp {s : State} (hs : StreamInv s) (r : CtlResp) : StreamInv (s.takeCtlResp r) := by
  have hlog : StreamInv (s.log [.ctlResp r]) := hs.log rfl
  exact { hlog with }

/-- Every read response keeps the invariant of the streams; at end of stream the fill becomes the last block
(42_reader.md rules R145 to R147). -/
theorem ReadRespTo.streamInv {s t : State} {r : ReadResp} (ht : ReadRespTo s r t) (hs : StreamInv s)
    (hi : BlockInv s) (hf : s.st.fsm = .filling) (hq : s.st.req ≠ 0) (hr : readContract s.st.req r = true) :
    StreamInv t := by
  obtain ⟨he, -⟩ := hi.filling hf
  have hf' : s.st.fsm ≠ .appending := by simp [hf]
  cases ht with
  | @full b h => exact (hs.onData hf h.le).goto (by simpa using hf') (by decide) fun _ => .inl he
  | @short b _ => exact hs.onData hf (hi.fill_fits hq hr).2
  | ended hend _ =>
    have hdone := (hs.takeEnd hend).complete hf' .ok s.st.produced none
    exact { hdone with aligned := fun _ => hdone.aligned (.inl he) }
  | partialBlock hend _ =>
    have hblock : StreamInv ((s.takeReadResp r).goto .decrypting) :=
      (hs.takeEnd hend).goto hf' (by decide) fun _ => .inl he
    exact { hblock with aligned := fun _ => hblock.aligned (.inl he) }
  | error => exact (hs.onReadError hf _).complete hf' _ _ _

/-- Reset starts new streams (70_reset_and_hazards.md rules R200 and R201). -/
theorem assertReset_streamInv (s : State) : StreamInv s.assertReset := by
  have hstream : stream s.assertReset.io.trace = ⟨[], [], []⟩ := by simp [streamEvent]
  have hzero : be16 zero16 = 0 := by decide
  refine ⟨?_, ?_, ?_, ?_, ?_, ?_, ?_⟩ <;> rw [hstream] <;> simp [BlockState.reset, hzero]

/-- Settles O41: each kind of step keeps the invariant of the streams; the counter moves in KSBLOCK and the output in the
appending of a block. -/
theorem stepKeepsStreamInv : Obligations.StepKeepsStreamInv := by
  intro s t hi hs h
  cases step_stepTo h with
  | reset _ => exact assertReset_streamInv s
  | wait _ => exact hs
  | command h rest _ hf _ _ ht =>
    have haccept : StreamInv (s.log [.accept h (s.io.pay.take (hdrPlen h).toNat)]) := hs.log rfl
    exact ht.streamInv { haccept with } { hi with } hf
  | issue _ hf _ =>
    have hissue : StreamInv (s.log [.readReq (16 - s.st.fcnt)]) := hs.log rfl
    exact { hissue with }
  | response r _ _ hf hq _ hc ht => exact ht.streamInv hs hi hf hq hc
  | keystream _ hf => exact hs.ksBlock hi hf
  | append _ hf ht =>
    obtain ⟨-, hinit, -⟩ := hi.reading (.inr (.inr hf))
    exact ht.streamInv (hs.emitBlock hi hf) rfl hi.initCtr
  | answerOk v _ _ hf _ => exact (hs.takeCtlResp _).complete (by simp [hf]) _ _ _
  | answerError e _ _ hf _ => exact (hs.takeCtlResp _).complete (by simp [hf]) _ _ _

end Sys2Proof.Machine
end

section
/-! PROOFS. Family 10_state.md: what stays until reset: end of stream, the key, the initialisation and the round keys. -/

namespace Sys2Proof.Machine

/-- What LOOP_TEST transfers: the completion, where the count is reached or the stream has ended (42_reader.md rules R142
and R143). -/
def loopEvents (st : BlockState) : List Event :=
  if st.count.toNat ≤ st.produced.toNat ∨ st.eof = true then
    [.cpl (completionWord .ok (hdrOp st.cmd) st.produced) none]
  else []

theorem LoopTo.io_eq {s t : State} (hl : LoopTo s t) :
    t.io = { s.io with trace := s.io.trace ++ loopEvents s.st } := by
  cases hl with
  | done h => simp [loopEvents, h]
  | ended _ he => simp [loopEvents, he, State.ensureInit_st]
  | fetch h he => simp [loopEvents, he, Nat.not_le.mpr h]

theorem readReq_notMem_loopEvents (st : BlockState) (n : Nat) : .readReq n ∉ loopEvents st := by
  unfold loopEvents
  split <;> simp

/-- From `s` to `t` the record of transfers grows without an upstream read request. -/
def AsksNothing (s t : State) : Prop := ∃ es, t.io.trace = s.io.trace ++ es ∧ ∀ n, .readReq n ∉ es

theorem AsksNothing.refl (s : State) : AsksNothing s s := ⟨[], by simp⟩

theorem AsksNothing.trans {s t u : State} (hst : AsksNothing s t) (htu : AsksNothing t u) : AsksNothing s u := by
  obtain ⟨es, hes, hno⟩ := hst
  obtain ⟨fs, hfs, hno'⟩ := htu
  exact ⟨es ++ fs, by simp [hfs, hes], fun n => by simp [hno n, hno' n]⟩

theorem LoopTo.asksNothing {s t : State} (hl : LoopTo s t) : AsksNothing s t :=
  ⟨loopEvents s.st, by rw [hl.io_eq], readReq_notMem_loopEvents s.st⟩

theorem CommandTo.asksNothing {s t : State} {i : Option Instr} (ht : CommandTo s i t) : AsksNothing s t := by
  cases ht with
  | raised c => exact ⟨_, rfl, by simp⟩
  | loaded k _ => exact ⟨_, rfl, by simp⟩
  | passed op arg _ => exact ⟨_, rfl, by simp⟩
  | read count _ hl => exact hl.asksNothing

theorem CommandTo.eof_eq {s t : State} {i : Option Instr} (ht : CommandTo s i t) : t.st.eof = s.st.eof := by
  cases ht with
  | read count _ hl => exact hl.eof_eq
  | _ => rfl

/-- Settles O19: only FILLING asks the source, which needs `eof` clear; no step but reset clears `eof`. -/
theorem endOfStreamIsSticky : Obligations.EndOfStreamIsSticky := by
  intro s t hi hrst he h
  have hnf : s.st.fsm ≠ .filling := fun hf => absurd (hi.filling hf).1 (by simp [he])
  cases step_stepTo h with
  | reset hr => simp [hrst] at hr
  | wait _ => exact ⟨he, AsksNothing.refl s⟩
  | command h _ _ _ _ _ ht =>
    have haccept : AsksNothing s (s.accept h) := ⟨_, rfl, by simp⟩
    exact ⟨by rw [ht.eof_eq]; exact he, haccept.trans ht.asksNothing⟩
  | issue _ hf _ => exact absurd hf hnf
  | response _ _ _ hf _ _ _ _ => exact absurd hf hnf
  | keystream _ _ => exact ⟨by simpa using he, [], by simp⟩
  | append _ _ ht =>
    have hemit : AsksNothing s s.emitBlock := ⟨_, rfl, by simp⟩
    exact ⟨by rw [ht.eof_eq]; exact he, hemit.trans ht.asksNothing⟩
  | answerOk v _ _ _ _ => exact ⟨he, [.ctlResp (.ok v), cplEvent s .ok v none], by simp [cplEvent]⟩
  | answerError e _ _ _ _ =>
    exact ⟨he, [.ctlResp (.error e), cplEvent s .sourceIoFailure 0 (some e)], by simp [cplEvent]⟩

/-- From `s` to `t` a loaded key stays, and so do a cipher's initialisation and its round keys (10_state.md rules R21 to
R23 and R25). -/
def KeepsKey (s t : State) : Prop :=
  (s.st.keyValid = true → t.st.keyValid = true ∧ t.st.key = s.st.key) ∧
    (s.st.init = true → t.st.init = true ∧ t.st.rk = s.st.rk)

theorem LoopTo.keepsKey {s t : State} (hl : LoopTo s t) : KeepsKey s t := by
  refine ⟨fun hk => ?_, hl.init_rk_eq⟩
  cases hl <;> simp [State.ensureInit_st, hk]

theorem CommandTo.keepsKey {s t : State} {i : Option Instr} (ht : CommandTo s i t) : KeepsKey s t := by
  cases ht with
  | raised c => exact ⟨fun hk => ⟨hk, rfl⟩, fun hi => ⟨hi, rfl⟩⟩
  | loaded k h => exact ⟨fun hk => by simp [h] at hk, fun hi => ⟨hi, rfl⟩⟩
  | passed op arg _ => exact ⟨fun hk => ⟨hk, rfl⟩, fun hi => ⟨hi, rfl⟩⟩
  | read count _ hl => exact hl.keepsKey

theorem ReadRespTo.keepsKey {s t : State} {r : ReadResp} (ht : ReadRespTo s r t) : KeepsKey s t := by
  cases ht <;> exact ⟨fun hk => by simpa using hk, fun hi => by simpa using hi⟩

/-- Settles O23: a key load needs `key_valid` clear, INIT needs `init` clear, and no other step but reset writes either. -/
theorem keyIsImmutableUntilReset : Obligations.KeyIsImmutableUntilReset := by
  intro s t hrst h
  change KeepsKey s t
  cases step_stepTo h with
  | reset hr => simp [hrst] at hr
  | command h _ _ _ _ _ ht => exact ht.keepsKey
  | response _ _ _ _ _ _ _ ht => exact ht.keepsKey
  | append _ _ ht => exact ht.keepsKey
  | keystream _ _ => exact ⟨fun hk => by simpa using hk, fun hi => by simpa using hi⟩
  | _ => exact ⟨fun hk => ⟨hk, rfl⟩, fun hi => ⟨hi, rfl⟩⟩

end Sys2Proof.Machine
end

section
/-! PROOFS. Family 10_state.md: key material. Two states that differ in the key, the round keys, the counter and the
keystream block alone take the same step, but for the plaintext of a block. -/

namespace Sys2Proof.Machine

/-- The four fields of `st` that are key material (60_exceptions.md rule R195). -/
structure KeyMaterial where
  key : Bytes16
  rk : RoundKeys
  ctr : Bytes16
  ks : Bytes16

/-- The record with other key material. -/
def BlockState.rekey (k : KeyMaterial) (st : BlockState) : BlockState :=
  { st with key := k.key, rk := k.rk, ctr := k.ctr, ks := k.ks }

/-- The machine with other key material. -/
def State.rekey (k : KeyMaterial) (s : State) : State := { s with st := s.st.rekey k }

/-- The machines `s` and `u` differ in key material alone (10_state.md rule R35). -/
def Rekeyed (s u : State) : Prop := ∃ k, u = s.rekey k

/-- Where `o` answers a state, `o'` answers one that differs from it in key material alone. -/
def AnswersRekeyed (o o' : Host.Outcome State Fault Refusal) : Prop :=
  ∀ t, o = .next t → ∃ t', o' = .next t' ∧ Rekeyed t t'

theorem Rekeyed.answers {s u : State} (h : Rekeyed s u) : AnswersRekeyed (.next s) (.next u) := by
  rintro t ⟨⟩
  exact ⟨u, rfl, h⟩

/-- Two branches on one condition are related where their arms are. -/
theorem ite_rel {α : Type} {R : α → α → Prop} {p : Prop} {d d' : Decidable p} {a a' b b' : α} (ha : p → R a a')
    (hb : ¬ p → R b b') : R (@ite α p d a b) (@ite α p d' a' b') := by
  by_cases hp : p
  · rw [if_pos hp, if_pos hp]
    exact ha hp
  · rw [if_neg hp, if_neg hp]
    exact hb hp

theorem out_notMem_loopEvents (st : BlockState) (x : Byte) : .out x ∉ loopEvents st := by
  unfold loopEvents
  split <;> simp

/-- What LOOP_TEST leaves in the record (42_reader.md rules R142 and R143). -/
theorem LoopTo.st_eq {s t : State} (hl : LoopTo s t) :
    t.st = if s.st.count.toNat ≤ s.st.produced.toNat then { s.st with fsm := .idle }
      else { s.ensureInit.st with fcnt := 0, fsm := if s.st.eof then .idle else .filling } := by
  cases hl with
  | done h => simp [h]
  | ended h he => simp [Nat.not_le.mpr h, he]
  | fetch h he => simp [Nat.not_le.mpr h, he]

/-- LOOP_TEST carries key material to no other field: records that differ in it alone do so after LOOP_TEST, whatever
the ports. -/
theorem loopTest_st_rekey {s u : State} {k : KeyMaterial} (h : u.st = s.st.rekey k) :
    ∃ k', u.loopTest.st = s.loopTest.st.rekey k' := by
  rw [u.loopTest_loopTo.st_eq, s.loopTest_loopTo.st_eq, State.ensureInit_st, State.ensureInit_st, h]
  refine ite_rel (R := fun st st' => ∃ k', st' = BlockState.rekey k' st) (fun _ => ⟨k, rfl⟩) fun _ => ?_
  exact ⟨{ k with
    rk := if s.st.init then k.rk else keyExpansion k.key
    ctr := if s.st.init then k.ctr else ofBE16 0 }, rfl⟩

theorem loopTest_rekey (s : State) (k : KeyMaterial) : Rekeyed s.loopTest (s.rekey k).loopTest := by
  obtain ⟨k', hst⟩ := loopTest_st_rekey (s := s) (u := s.rekey k) rfl
  have hio : (s.rekey k).loopTest.io = s.loopTest.io := by
    rw [(s.rekey k).loopTest_loopTo.io_eq, s.loopTest_loopTo.io_eq]
    rfl
  have hm : (s.rekey k).loopTest.ctrIncBits = s.loopTest.ctrIncBits := by
    rw [(s.rekey k).loopTest_loopTo.ctrIncBits_eq, s.loopTest_loopTo.ctrIncBits_eq]
    rfl
  exact ⟨k', calc (s.rekey k).loopTest
      = ⟨(s.rekey k).loopTest.st, (s.rekey k).loopTest.io, (s.rekey k).loopTest.ctrIncBits⟩ := rfl
    _ = ⟨s.loopTest.st.rekey k', s.loopTest.io, s.loopTest.ctrIncBits⟩ := by rw [hst, hio, hm]⟩

theorem loadCandidate_rekey (b : List Byte) (s : State) (k : KeyMaterial) :
    Rekeyed (s.loadCandidate b) ((s.rekey k).loadCandidate b) := by
  unfold State.loadCandidate
  cases keyOfBytes b with
  | none => exact ⟨k, rfl⟩
  | some key => exact ⟨{ k with key := key }, rfl⟩

/-- No command carries key material to another field or to the ports. -/
theorem exec_rekey (i : Instr) (s : State) (k : KeyMaterial) : AnswersRekeyed (exec i s) (exec i (s.rekey k)) := by
  cases i with
  | ldkey pay => exact (ite_rel (fun _ => ⟨k, rfl⟩) fun _ => loadCandidate_rekey pay s k).answers
  | ldkeyhex pay =>
    refine (ite_rel (R := Rekeyed) (fun _ => ⟨k, rfl⟩) fun _ => ?_).answers
    cases decodeKey pay with
    | none => exact ⟨k, rfl⟩
    | some b => exact loadCandidate_rekey b s k
  | read count => exact (ite_rel (fun _ => loopTest_rekey (s.startRead count) k) fun _ => ⟨k, rfl⟩).answers
  | _ => exact Rekeyed.answers ⟨k, rfl⟩

theorem idleStep_rekey (s : State) (k : KeyMaterial) : AnswersRekeyed (idleStep s) (idleStep (s.rekey k)) := by
  have hio : (s.rekey k).io = s.io := rfl
  unfold idleStep
  rw [hio]
  cases s.io.cmd with
  | nil => exact Rekeyed.answers ⟨k, rfl⟩
  | cons h rest =>
    refine ite_rel (fun _ => Rekeyed.answers ⟨k, rfl⟩) fun _ => ?_
    cases decode h (s.io.pay.take (hdrPlen h).toNat) with
    | ok i => exact exec_rekey i (s.accept h) k
    | error e => exact Rekeyed.answers ⟨k, rfl⟩

theorem onReadResp_rekey (r : ReadResp) (s : State) (k : KeyMaterial) :
    Rekeyed (s.onReadResp r) ((s.rekey k).onReadResp r) := by
  cases r with
  | data b => exact ite_rel (fun _ => ⟨k, rfl⟩) fun _ => ⟨k, rfl⟩
  | endOfStream => exact ite_rel (fun _ => ⟨k, rfl⟩) fun _ => ⟨k, rfl⟩
  | notReadable => exact ite_rel (fun _ => ⟨k, rfl⟩) fun _ => ⟨k, rfl⟩
  | error e => exact ⟨k, rfl⟩

theorem fillingStep_rekey (s : State) (k : KeyMaterial) : AnswersRekeyed (fillingStep s) (fillingStep (s.rekey k)) := by
  have hio : (s.rekey k).io = s.io := rfl
  unfold fillingStep
  rw [hio]
  refine ite_rel (fun _ => Rekeyed.answers ⟨k, rfl⟩) fun _ => ?_
  cases s.io.srd with
  | nil => exact Rekeyed.answers ⟨k, rfl⟩
  | cons r rest => exact ite_rel (fun _ => (onReadResp_rekey r s k).answers) fun _ t h => by cases h

theorem ctlWaitStep_rekey (s : State) (k : KeyMaterial) : AnswersRekeyed (ctlWaitStep s) (ctlWaitStep (s.rekey k)) := by
  have hio : (s.rekey k).io = s.io := rfl
  unfold ctlWaitStep
  rw [hio]
  cases s.io.sctl with
  | nil => exact Rekeyed.answers ⟨k, rfl⟩
  | cons r rest => cases r <;> exact Rekeyed.answers ⟨k, rfl⟩

/-- Reset leaves nothing of the key material (70_reset_and_hazards.md rule R200). -/
theorem assertReset_rekey (s : State) (k : KeyMaterial) : Rekeyed s.assertReset (s.rekey k).assertReset :=
  ⟨⟨zero16, Vector.replicate 11 zero16, zero16, zero16⟩, rfl⟩

/-- Outside the appending of a block no step carries key material to another field or to the ports. -/
theorem step_rekey {s : State} (k : KeyMaterial) (h : ¬ (s.st.fsm = .appending ∧ Free s)) :
    AnswersRekeyed (step s) (step (s.rekey k)) := by
  have hfsm : (s.rekey k).st.fsm = s.st.fsm := rfl
  refine ite_rel (fun _ => (assertReset_rekey s k).answers) fun (hr : ¬ s.io.rst = true) => ?_
  refine ite_rel (fun _ => Rekeyed.answers ⟨k, rfl⟩) fun (hs : ¬ s.io.stalled = true) => ?_
  unfold blockStep
  rw [hfsm]
  cases hf : s.st.fsm with
  | idle => exact idleStep_rekey s k
  | filling => exact fillingStep_rekey s k
  | decrypting =>
    exact Rekeyed.answers ⟨{ k with ks := aes128 k.rk k.ctr, ctr := inc s.ctrIncBits.val k.ctr }, rfl⟩
  | appending => exact absurd ⟨hf, by simpa using hr, by simpa using hs⟩ h
  | ctlWait => exact ctlWaitStep_rekey s k

/-- In `APPENDING` a free machine emits the block and runs LOOP_TEST (42_reader.md rule R149). -/
theorem step_appending {s : State} (hf : s.st.fsm = .appending) (hfree : Free s) :
    step s = .next s.emitBlock.loopTest := by
  rw [step_of_free hfree.1 hfree.2, blockStep, hf]

/-- The ports after a block is appended: its plaintext and what LOOP_TEST transfers (42_reader.md rule R149). -/
theorem emitBlock_loopTest_io (s : State) : s.emitBlock.loopTest.io =
    { s.io with trace := s.io.trace ++ (plainBytes s.st).map .out ++ loopEvents s.emitBlock.st } :=
  s.emitBlock.loopTest_loopTo.io_eq

/-- Settles O24: only the plaintext of a block depends on key material, and of that on the keystream block alone. -/
theorem keyMaterialNeverLeaves : Obligations.KeyMaterialNeverLeaves := by
  intro s t key rk ctr ks h
  change ∃ t', step (s.rekey ⟨key, rk, ctr, ks⟩) = .next t' ∧ _
  by_cases happ : s.st.fsm = .appending ∧ Free s
  · obtain ⟨hf, hfree⟩ := happ
    rw [step_appending hf hfree] at h
    cases h
    have hemit : (s.rekey ⟨key, rk, ctr, ks⟩).emitBlock.st = s.emitBlock.st.rekey ⟨key, rk, ctr, ks⟩ := rfl
    obtain ⟨k', hst⟩ := loopTest_st_rekey hemit
    refine ⟨_, step_appending hf hfree, ?_, ?_, fun hnot => ?_, fun _ _ => ?_⟩
    · rw [hst]
      rfl
    · rw [(State.loopTest_loopTo _).ctrIncBits_eq, (State.loopTest_loopTo _).ctrIncBits_eq]
      rfl
    · exact (hnot.elim (· hf) (· hfree)).elim
    · exact ⟨_, emitBlock_loopTest_io s, emitBlock_loopTest_io _, out_notMem_loopEvents _⟩
  · obtain ⟨t', ht', k', rfl⟩ := step_rekey ⟨key, rk, ctr, ks⟩ happ t h
    exact ⟨_, ht', rfl, rfl, fun _ => rfl, fun hf hfree => absurd ⟨hf, hfree⟩ happ⟩

end Sys2Proof.Machine
end

section
/-! PROOFS. Family 10_state.md: INIT at key load or at the first READ (10_state.md rule R40). -/

namespace Sys2Proof.Machine

/-- What a step without INIT is compared with: `t` after INIT where INIT is still to run, `t` where a READ has run it. -/
def State.earlyInit (t : State) : State := if t.st.keyValid = true ∧ t.st.init = false then t.initCipher else t

theorem State.earlyInit_of_pending {t : State} (hk : t.st.keyValid = true) (hi : t.st.init = false) :
    t.earlyInit = t.initCipher := if_pos ⟨hk, hi⟩

theorem State.earlyInit_of_init {t : State} (hi : t.st.init = true) : t.earlyInit = t :=
  if_neg fun h => by simp [hi] at h

/-- A READ of at least one byte runs INIT, which an early INIT has done already (42_reader.md rule R142). -/
theorem loopTest_startRead_initCipher {s : State} {count : BitVec 48} (hi : s.st.init = false) (hc : 0 < count.toNat) :
    (s.initCipher.startRead count).loopTest = (s.startRead count).loopTest := by
  have hinit : (s.initCipher.startRead count).ensureInit = (s.startRead count).ensureInit := by
    rw [State.ensureInit_of_init rfl, State.ensureInit_of_not_init (by simpa using hi)]
    rfl
  unfold State.loopTest
  rw [if_neg (by simpa [Nat.pos_iff_ne_zero] using hc), if_neg (by simpa [Nat.pos_iff_ne_zero] using hc), hinit]

/-- A READ of no bytes completes before INIT (42_reader.md rule R142). -/
theorem loopTest_startRead_zero (s : State) {count : BitVec 48} (hc : ¬ 0 < count.toNat) :
    (s.startRead count).loopTest = (s.startRead count).complete .ok 0 none :=
  if_pos (by simpa using hc)

/-- A READ that fetches leaves the cipher initialised. -/
theorem init_loopTest_startRead (s : State) {count : BitVec 48} (hc : 0 < count.toNat) :
    (s.startRead count).loopTest.st.init = true := by
  rw [(State.loopTest_loopTo _).st_eq, if_neg (by simpa [Nat.pos_iff_ne_zero] using hc)]
  simp [State.ensureInit_st]

/-- Where `o` answers a state, `o'` answers that state with INIT run early. -/
def AnswersEarlyInit (o o' : Host.Outcome State Fault Refusal) : Prop := ∀ t, o = .next t → o' = .next t.earlyInit

theorem answersEarlyInit_pending {t : State} (hk : t.st.keyValid = true) (hi : t.st.init = false) :
    AnswersEarlyInit (.next t) (.next t.initCipher) := by
  rintro _ ⟨⟩
  rw [State.earlyInit_of_pending hk hi]

/-- With a key and INIT to run, every command is answered after an early INIT as without it. -/
theorem exec_initCipher (i : Instr) {s : State} (hk : s.st.keyValid = true) (hi : s.st.init = false) :
    AnswersEarlyInit (exec i s) (exec i s.initCipher) := by
  have hk' : s.initCipher.st.keyValid = true := hk
  cases i with
  | ldkey pay =>
    simp only [exec, execLdkey, if_pos hk, if_pos hk']
    exact answersEarlyInit_pending (t := s.raise _) hk hi
  | ldkeyhex pay =>
    simp only [exec, execLdkeyhex, if_pos hk, if_pos hk']
    exact answersEarlyInit_pending (t := s.raise _) hk hi
  | read count =>
    simp only [exec, execRead, if_pos hk, if_pos hk']
    by_cases hc : 0 < count.toNat
    · rintro _ ⟨⟩
      rw [State.earlyInit_of_init (init_loopTest_startRead s hc), loopTest_startRead_initCipher hi hc]
    · rw [loopTest_startRead_zero s hc, loopTest_startRead_zero s.initCipher hc]
      exact answersEarlyInit_pending (t := (s.startRead count).complete _ _ _) hk hi
  | write | seek | posset => exact answersEarlyInit_pending (t := s.raise _) hk hi
  | close | length | posget | flush | setlen => exact answersEarlyInit_pending (t := s.pass _ _) hk hi

theorem idleStep_initCipher {s : State} (hk : s.st.keyValid = true) (hi : s.st.init = false) :
    AnswersEarlyInit (idleStep s) (idleStep s.initCipher) := by
  unfold idleStep
  rw [State.initCipher_io]
  cases s.io.cmd with
  | nil => exact answersEarlyInit_pending hk hi
  | cons h rest =>
    refine ite_rel (fun _ => answersEarlyInit_pending hk hi) fun _ => ?_
    cases decode h (s.io.pay.take (hdrPlen h).toNat) with
    | ok i => exact exec_initCipher i (s := s.accept h) hk hi
    | error e => exact answersEarlyInit_pending (t := (s.accept h).raise _) hk hi

theorem ctlWaitStep_initCipher {s : State} (hk : s.st.keyValid = true) (hi : s.st.init = false) :
    AnswersEarlyInit (ctlWaitStep s) (ctlWaitStep s.initCipher) := by
  unfold ctlWaitStep
  rw [State.initCipher_io]
  cases s.io.sctl with
  | nil => exact answersEarlyInit_pending hk hi
  | cons r rest => cases r <;> exact answersEarlyInit_pending (t := (s.takeCtlResp _).complete _ _ _) hk hi

/-- Outside reset a step with a key and INIT to run is answered after an early INIT as without it: the sequencer is in
`IDLE` or `CTL_WAIT`, since a READ executes with an initialised cipher (42_reader.md rule R142). -/
theorem step_initCipher {s : State} (hb : BlockInv s) (hk : s.st.keyValid = true) (hi : s.st.init = false)
    (hr : s.io.rst = false) : AnswersEarlyInit (step s) (step s.initCipher) := by
  have hfsm : s.initCipher.st.fsm = s.st.fsm := rfl
  have hnotReading (h : s.st.fsm = .filling ∨ s.st.fsm = .decrypting ∨ s.st.fsm = .appending) : False := by
    obtain ⟨-, hinit, -⟩ := hb.reading h
    simp [hi] at hinit
  refine ite_rel (fun (h : s.io.rst = true) => by simp [hr] at h) fun _ => ?_
  refine ite_rel (fun _ => answersEarlyInit_pending hk hi) fun _ => ?_
  unfold blockStep
  rw [hfsm]
  cases hf : s.st.fsm with
  | idle => exact idleStep_initCipher hk hi
  | filling => exact (hnotReading (.inl hf)).elim
  | decrypting => exact (hnotReading (.inr (.inl hf))).elim
  | appending => exact (hnotReading (.inr (.inr hf))).elim
  | ctlWait => exact ctlWaitStep_initCipher hk hi

/-- Every move of the block, the host or the source outside reset is answered after an early INIT as without it. -/
theorem move_initCipher {m : Move} {s : State} (hb : BlockInv s) (hk : s.st.keyValid = true) (hi : s.st.init = false)
    (hr : m = .block → s.io.rst = false) : AnswersEarlyInit (move m s) (move m s.initCipher) := by
  have refusedHere (r : Refusal) : AnswersEarlyInit (.refused r) (.refused r) := fun _ h => by cases h
  cases m with
  | block => exact step_initCipher hb hk hi (hr rfl)
  | hostHeader h => exact answersEarlyInit_pending (t := { s with io := _ }) hk hi
  | hostPayload x =>
    exact ite_rel (fun _ => answersEarlyInit_pending (t := { s with io := _ }) hk hi) fun _ => refusedHere _
  | delay waiting => exact answersEarlyInit_pending (t := { s with io := _ }) hk hi
  | sourceRead r =>
    exact ite_rel (fun _ => answersEarlyInit_pending (t := { s with io := _ }) hk hi) fun _ => refusedHere _
  | sourceCtl r =>
    exact ite_rel (fun _ => answersEarlyInit_pending (t := { s with io := _ }) hk hi) fun _ => refusedHere _
  | assertReset => exact answersEarlyInit_pending (t := { s with io := _ }) hk hi

/-- Settles O22: INIT commutes with every move until a READ runs it, and reset undoes it. -/
theorem earlyInitIsUnobservable : Obligations.EarlyInitIsUnobservable := by
  refine ⟨fun count s hk hi hc => ?_, fun m s t hb hk hi hr h => move_initCipher hb hk hi hr t h, fun s t hr h => ?_,
    fun s => rfl⟩
  · have hk' : s.initCipher.st.keyValid = true := hk
    simp only [exec, execRead, if_pos hk, if_pos hk', loopTest_startRead_initCipher hi hc]
  · have hstep (u : State) (hu : u.io.rst = true) : step u = .next u.assertReset := if_pos hu
    rw [hstep s hr] at h
    cases h
    exact ⟨s.initCipher.assertReset, hstep s.initCipher hr, rfl, rfl, rfl⟩

end Sys2Proof.Machine
end

section
/-! PROOFS. Family 20_memory.md: the step written out where the block waits, fetches and decrypts; the counter blocks
from the zero IV. -/

namespace Sys2Proof.Machine

/-- Where the block's own step changes nothing, so does the machine's, stalled or not (20_memory.md rule R52). -/
theorem step_eq_self {s : State} (hr : s.io.rst = false) (h : s.io.stalled = true ∨ blockStep s = .next s) :
    step s = .next s := by
  cases hs : s.io.stalled with
  | true => simp [step, cycle, hr, hs]
  | false => rw [step_of_free hr hs, h.resolve_left (by simp [hs])]

theorem Free.step_eq {s : State} (h : Free s) : step s = blockStep s := step_of_free h.1 h.2

/-- In `IDLE` the block waits for a header (60_exceptions.md rule R199). -/
theorem blockStep_idle_nil {s : State} (hf : s.st.fsm = .idle) (hc : s.io.cmd = []) : blockStep s = .next s := by
  simp only [blockStep, hf, idleStep, hc]

/-- In `IDLE` the block waits for the whole payload of a header (30_encoding.md rule R81). -/
theorem blockStep_idle_short {s : State} {h : Header} {rest : List Header} (hf : s.st.fsm = .idle)
    (hc : s.io.cmd = h :: rest) (hp : s.io.pay.length < (hdrPlen h).toNat) : blockStep s = .next s := by
  simp only [blockStep, hf, idleStep, hc, if_pos hp]

/-- Every accepted command is answered, an illegal header too (30_encoding.md rule R86). -/
theorem runCommand_answers (d : Except DecodeError Instr) (s : State) : Answered (runCommand d s) := by
  cases d with
  | ok i => exact exec_answers i s
  | error e => exact ⟨_, rfl⟩

/-- In `FILLING` with no request outstanding the block sends one (42_reader.md rule R144). -/
theorem blockStep_issue {s : State} (hf : s.st.fsm = .filling) (hq : s.st.req = 0) :
    blockStep s = .next s.issueRead := by
  simp only [blockStep, hf, fillingStep, if_pos hq]

/-- In `FILLING` the block waits for the answer to its request (20_memory.md rule R55). -/
theorem blockStep_filling_nil {s : State} (hf : s.st.fsm = .filling) (hq : s.st.req ≠ 0) (hs : s.io.srd = []) :
    blockStep s = .next s := by
  simp only [blockStep, hf, fillingStep, if_neg hq, hs]

/-- In `FILLING` the block takes an answer within the contract (42_reader.md rules R145 to R147). -/
theorem blockStep_response {s : State} {r : ReadResp} {rest : List ReadResp} (hf : s.st.fsm = .filling)
    (hq : s.st.req ≠ 0) (hs : s.io.srd = r :: rest) (hc : readContract s.st.req r = true) :
    blockStep s = .next (s.onReadResp r) := by
  simp only [blockStep, hf, fillingStep, if_neg hq, hs, if_pos hc]

/-- In `DECRYPTING` the block runs KSBLOCK (42_reader.md rule R148). -/
theorem blockStep_decrypting {s : State} (hf : s.st.fsm = .decrypting) :
    blockStep s = .next (s.ksBlock.goto .appending) := by
  simp only [blockStep, hf]

/-- In `CTL_WAIT` the block waits for the source's answer (43_control_commands.md rule R160). -/
theorem blockStep_ctlWait_nil {s : State} (hf : s.st.fsm = .ctlWait) (hs : s.io.sctl = []) :
    blockStep s = .next s := by
  simp only [blockStep, hf, ctlWaitStep, hs]

/-- Settles O10: in each waiting case the block's own step changes nothing. -/
theorem waitingChangesNothing : Obligations.WaitingChangesNothing := by
  intro s hr h
  refine step_eq_self hr (h.imp_right fun h => ?_)
  rcases h with ⟨hf, hc | ⟨w, rest, hc, hp⟩⟩ | ⟨hf, hq, hs⟩ | ⟨hf, hs⟩
  · exact blockStep_idle_nil hf hc
  · exact blockStep_idle_short hf hc hp
  · exact blockStep_filling_nil hf (Nat.ne_of_gt hq) hs
  · exact blockStep_ctlWait_nil hf hs

/-- In `IDLE` every step is answered (60_exceptions.md rule R180). -/
theorem idleStep_answers (s : State) : Answered (idleStep s) := by
  unfold idleStep
  cases s.io.cmd with
  | nil => exact ⟨_, rfl⟩
  | cons h rest =>
    dsimp only
    split
    · exact ⟨_, rfl⟩
    · exact runCommand_answers _ _

theorem ctlWaitStep_answers (s : State) : Answered (ctlWaitStep s) := by
  unfold ctlWaitStep
  cases s.io.sctl with
  | nil => exact ⟨_, rfl⟩
  | cons r rest => exact ⟨_, rfl⟩

/-- In `FILLING` the one step that is refused takes an answer outside the contract (20_memory.md rule R54). -/
theorem blockStep_filling_answers {s : State} (hs : SourceInv s) (hf : s.st.fsm = .filling) :
    Answered (blockStep s) := by
  by_cases hq : s.st.req = 0
  · exact ⟨_, blockStep_issue hf hq⟩
  rcases hs.read with hnil | ⟨r, hsrd, -, -, hc⟩
  · exact ⟨_, blockStep_filling_nil hf hq hnil⟩
  · exact ⟨_, blockStep_response hf hq hsrd hc⟩

/-- Settles O45: only an answer outside the contract is refused, and none such waits. -/
theorem blockIsNeverRefused : Obligations.BlockIsNeverRefused := by
  intro s hs
  unfold step cycle
  split
  · exact ⟨_, rfl⟩
  split
  · exact ⟨_, rfl⟩
  cases hf : s.st.fsm with
  | idle => simpa only [blockStep, hf] using idleStep_answers s
  | filling => exact blockStep_filling_answers hs hf
  | decrypting => exact ⟨_, blockStep_decrypting hf⟩
  | appending => exact ⟨s.emitBlock.loopTest, by simp only [blockStep, hf]⟩
  | ctlWait => simpa only [blockStep, hf] using ctlWaitStep_answers s

/-- A counter block below `2^m` is incremented as its number modulo `2^m` (41_keystream_engine.md rule R126). -/
theorem inc_ofBE16 {m n : Nat} (hm : m ≤ 128) (hn : n < 2 ^ m) : inc m (ofBE16 n) = ofBE16 ((n + 1) % 2 ^ m) := by
  have hpow : 2 ^ m ≤ 2 ^ 128 := Nat.pow_le_pow_right (by norm_num) hm
  have hbe : be16 (ofBE16 n) = n := by rw [be16_ofBE16, Nat.mod_eq_of_lt (by omega)]
  rw [← ofBE16_be16 (inc m (ofBE16 n)), be16_inc_of_lt hm (by rwa [hbe]), hbe]

/-- Settles O34, by induction on the number of increments. -/
theorem counterBlocksFromZero : Obligations.CounterBlocksFromZero := by
  intro m k hm
  induction k with
  | zero => simp
  | succ k ih =>
    have hlt : k % 2 ^ m < 2 ^ m := Nat.mod_lt _ (by positivity)
    calc (inc m)^[k + 1] (ofBE16 0) = inc m ((inc m)^[k] (ofBE16 0)) := Function.iterate_succ_apply' ..
      _ = ofBE16 ((k % 2 ^ m + 1) % 2 ^ m) := by rw [ih, inc_ofBE16 hm hlt]
      _ = ofBE16 ((k + 1) % 2 ^ m) := by rw [Nat.mod_add_mod]

end Sys2Proof.Machine
end

section
/-! PROOFS. Family 20_memory.md: the port protocol. Between taking a command and completing it the observer stands at a
command with nothing outstanding; every step starts, ends or passes through such a state. -/

namespace Sys2Proof.Machine

/-- `STATUS` of a completion word (30_encoding.md rule R88). -/
@[simp] theorem cplStatus_completionWord (c : Status) (op : BitVec 8) (v : Word64) :
    cplStatus (completionWord c op v) = statusCode c := by
  apply BitVec.eq_of_getLsbD_eq
  intro i hi
  simp only [cplStatus, completionWord, BitVec.getLsbD_extractLsb', BitVec.getLsbD_append]
  simp [hi, show ¬ 120 + i < 64 by omega, show ¬ 120 + i - 64 < 48 by omega, show ¬ 120 + i - 64 - 48 < 8 by omega,
    show 120 + i - 64 - 48 - 8 = i by omega]

/-- `ZERO` of a completion word (30_encoding.md rule R88). -/
@[simp] theorem cplZero_completionWord (c : Status) (op : BitVec 8) (v : Word64) :
    cplZero (completionWord c op v) = 0 := by
  apply BitVec.eq_of_getLsbD_eq
  intro i hi
  simp only [cplZero, completionWord, BitVec.getLsbD_extractLsb', BitVec.getLsbD_append]
  simp [hi, show ¬ 64 + i < 64 by omega]

/-- The seven codes of 30_encoding.md rule R89 are 0 to 6. -/
theorem statusCode_toNat_le (c : Status) : (statusCode c).toNat ≤ 6 := by
  cases c <;> decide

/-- A command that a header decodes to has the header's `OP` (30_encoding.md rule R85). -/
theorem opcode_of_toOption {h : Header} {pay : List Byte} {i : Instr} (hd : (decode h pay).toOption = some i) :
    hdrOp h = opcode i := by
  cases hok : decode h pay with
  | ok j =>
    rw [hok] at hd
    cases hd
    exact opcode_of_decode hok
  | error e =>
    rw [hok] at hd
    cases hd

/-- The command latched in `s` is executing and the observer sees it with no request outstanding (20_memory.md rules R57
and R71). -/
structure Executing (s : State) : Prop where
  monitor_eq : monitor s.io.trace = some ⟨some s.st.cmd, 0, false⟩
  req_eq : s.st.req = 0

/-- The observer lets an executing command complete, with any status, value and error (30_encoding.md rule R88). -/
theorem Executing.complete {s : State} (hx : Executing s) (c : Status) (v : Word64) (err : Option SrcErr) :
    ProtocolInv (s.complete c v err) where
  kept := by
    simp [monitor_append_singleton, hx.monitor_eq, hx.req_eq, monitorEvent, statusCode_toNat_le]
  readOp := by simp

/-- The observer lets an executing command send a control request (43_control_commands.md rule R160). -/
theorem Executing.pass {s : State} (hx : Executing s) (op : CtlOp) (arg : Word64) : ProtocolInv (s.pass op arg) where
  kept := by simp [monitor_append_singleton, hx.monitor_eq, hx.req_eq, monitorEvent]
  readOp := by simp

/-- A READ with no request outstanding stands where the observer thinks it does (10_state.md rule R30). -/
theorem Executing.protocolInv {s : State} (hx : Executing s)
    (hf : s.st.fsm = .filling ∨ s.st.fsm = .decrypting ∨ s.st.fsm = .appending) (hop : hdrOp s.st.cmd = 0x10) :
    ProtocolInv s where
  kept := by rcases hf with hf | hf | hf <;> simp [hx.monitor_eq, hx.req_eq, hf]
  readOp := fun _ => hop

/-- While a command executes with no request outstanding the observer sees just that. -/
theorem ProtocolInv.executing {s : State} (hp : ProtocolInv s) (hq : s.st.req = 0) (hi : s.st.fsm ≠ .idle)
    (hc : s.st.fsm ≠ .ctlWait) : Executing s :=
  ⟨by simp [hp.kept, hq, hi, hc], hq⟩

/-- In `IDLE` the observer waits for a command, and accepts one with its whole payload (30_encoding.md rule R81). -/
theorem ProtocolInv.accept {s : State} (hp : ProtocolInv s) (hf : s.st.fsm = .idle) (hq : s.st.req = 0) {h : Header}
    (hpay : (hdrPlen h).toNat ≤ s.io.pay.length) : Executing (s.accept h) :=
  ⟨by simp [monitor_append_singleton, hp.kept, hf, hq, monitorEvent, hpay], hq⟩

/-- A response within the contract ends the outstanding request (20_memory.md rules R54 and R57). -/
theorem ProtocolInv.takeReadResp {s : State} (hp : ProtocolInv s) (hf : s.st.fsm = .filling) (hq : s.st.req ≠ 0)
    {r : ReadResp} (hr : readContract s.st.req r = true) : Executing (s.takeReadResp r) :=
  ⟨by simp [monitor_append_singleton, hp.kept, hf, monitorEvent, hr, Nat.pos_of_ne_zero hq], rfl⟩

/-- An answer ends the outstanding control request (20_memory.md rule R57). -/
theorem ProtocolInv.takeCtlResp {s : State} (hp : ProtocolInv s) (hf : s.st.fsm = .ctlWait) (hq : s.st.req = 0)
    (r : CtlResp) : Executing (s.takeCtlResp r) :=
  ⟨by simp [monitor_append_singleton, hp.kept, hf, hq, monitorEvent], hq⟩

/-- The observer lets a READ with no request outstanding emit a block (20_memory.md rule R72). -/
theorem Executing.emitBlock {s : State} (hx : Executing s) (hop : hdrOp s.st.cmd = 0x10) : Executing s.emitBlock :=
  ⟨monitor_append_out hx.monitor_eq rfl rfl (by simp [hop]) _, hx.req_eq⟩

/-- The bytes of the fill and the cipher are no part of the port protocol. -/
theorem Executing.appendFill {s : State} (hx : Executing s) (b : List Byte) : Executing (s.appendFill b) :=
  ⟨by simpa using hx.monitor_eq, by simpa using hx.req_eq⟩

theorem Executing.ksBlock {s : State} (hx : Executing s) : Executing s.ksBlock :=
  ⟨by simpa using hx.monitor_eq, by simpa using hx.req_eq⟩

theorem Executing.goto {s : State} (hx : Executing s) (f : Fsm) : Executing (s.goto f) :=
  ⟨by simpa using hx.monitor_eq, by simpa using hx.req_eq⟩

/-- LOOP_TEST of a READ keeps the port protocol (42_reader.md rules R142 and R143). -/
theorem LoopTo.protocolInv {s t : State} (hl : LoopTo s t) (hx : Executing s) (hop : hdrOp s.st.cmd = 0x10) :
    ProtocolInv t := by
  have hinit : Executing s.ensureInit.clearFill :=
    ⟨by simp [hx.monitor_eq, State.ensureInit_st], by simp [hx.req_eq, State.ensureInit_st]⟩
  cases hl with
  | done _ => exact hx.complete _ _ _
  | ended _ _ => exact hinit.complete _ _ _
  | fetch _ _ => exact (hinit.goto .filling).protocolInv (.inl rfl) (by simpa [State.ensureInit_st] using hop)

/-- Every command keeps the port protocol (60_exceptions.md rule R181). -/
theorem CommandTo.protocolInv {s t : State} {i : Option Instr} (ht : CommandTo s i t) (hx : Executing s)
    (hop : ∀ j, i = some j → hdrOp s.st.cmd = opcode j) : ProtocolInv t := by
  cases ht with
  | raised c => exact hx.complete _ _ _
  | loaded k _ =>
    have hkey : Executing (s.loadKey k) := { hx with }
    exact hkey.complete _ _ _
  | passed op arg _ => exact hx.pass op arg
  | read count _ hl =>
    have hstart : Executing (s.startRead count) := { hx with }
    exact hl.protocolInv hstart (hop _ rfl)

/-- Every response to a READ's request keeps the port protocol (42_reader.md rules R145 to R147). -/
theorem ReadRespTo.protocolInv {s t : State} {r : ReadResp} (ht : ReadRespTo s r t) (hf : s.st.fsm = .filling)
    (hx : Executing (s.takeReadResp r)) (hop : hdrOp s.st.cmd = 0x10) : ProtocolInv t := by
  cases ht with
  | @full b _ => exact ((hx.appendFill b).goto .decrypting).protocolInv (by simp) (by simpa using hop)
  | @short b _ => exact (hx.appendFill b).protocolInv (by simp [hf]) (by simpa using hop)
  | ended _ _ =>
    have hend : Executing (s.takeReadResp r).markEof := { hx with }
    exact hend.complete _ _ _
  | partialBlock _ _ =>
    have hlast : Executing (s.takeReadResp r).markEof := { hx with }
    exact (hlast.goto .decrypting).protocolInv (by simp) (by simpa using hop)
  | @error e =>
    have hcleared : Executing (s.takeReadResp (.error e)).clearFill := { hx with }
    exact hcleared.complete _ _ _

/-- A READ with no request outstanding sends one for the remainder of its block (42_reader.md rule R144, 20_memory.md
rule R57). -/
theorem ProtocolInv.issueRead {s : State} (hp : ProtocolInv s) (hf : s.st.fsm = .filling) (hq : s.st.req = 0)
    (hn : s.st.fcnt < 16) : ProtocolInv s.issueRead where
  kept := by
    have hpos : 1 ≤ 16 - s.st.fcnt := by omega
    simp [monitor_append_singleton, hp.kept, hf, hq, monitorEvent, hp.readOp (.inl hf), hpos]
  readOp := hp.readOp

/-- Reset puts the observer back to its start (70_reset_and_hazards.md rule R202). -/
theorem assertReset_protocolInv (s : State) (h : (monitor s.io.trace).isSome) : ProtocolInv s.assertReset where
  kept := by
    obtain ⟨m, hm⟩ := Option.isSome_iff_exists.mp h
    simp [monitor_append_singleton, hm, monitorEvent, BlockState.reset]
  readOp := by simp [BlockState.reset]

/-- Settles O42: each kind of step keeps the port protocol. -/
theorem stepKeepsProtocolInv : Obligations.StepKeepsProtocolInv := by
  intro s t hi hp h
  cases step_stepTo h with
  | reset _ => exact assertReset_protocolInv s (by simp [hp.kept])
  | wait _ => exact hp
  | command h rest _ hf _ hpay ht =>
    exact ht.protocolInv (hp.accept hf (hi.req_eq_zero (by simp [hf])) hpay) fun _ => opcode_of_toOption
  | issue _ hf hq => exact hp.issueRead hf hq (hi.filling hf).2
  | response r _ _ hf hq _ hc ht => exact ht.protocolInv hf (hp.takeReadResp hf hq hc) (hp.readOp (.inl hf))
  | keystream _ hf =>
    have hx := hp.executing (hi.req_eq_zero (by simp [hf])) (by simp [hf]) (by simp [hf])
    exact (hx.ksBlock.goto .appending).protocolInv (by simp) (by simpa using hp.readOp (.inr (.inl hf)))
  | append _ hf ht =>
    have hx := hp.executing (hi.req_eq_zero (by simp [hf])) (by simp [hf]) (by simp [hf])
    have hop := hp.readOp (.inr (.inr hf))
    exact ht.protocolInv (hx.emitBlock hop) hop
  | answerOk _ _ _ hf _ => exact (hp.takeCtlResp hf (hi.req_eq_zero (by simp [hf])) _).complete _ _ _
  | answerError _ _ _ hf _ => exact (hp.takeCtlResp hf (hi.req_eq_zero (by simp [hf])) _).complete _ _ _

end Sys2Proof.Machine
end

section
/-! PROOFS. Family 20_memory.md: what a step takes from the ports. Each named update records a transfer as it takes it
from the front of its port; all else a step does is to record what the block sends. -/

namespace Sys2Proof.Machine

/-- From `s` to `t` the record grows by the transfers `es`, and what they take is what leaves the front of each port
(20_memory.md rule R52). -/
structure Takes (s t : State) (es : List Event) : Prop where
  trace : t.io.trace = s.io.trace ++ es
  headers : takenHeaders es ++ t.io.cmd = s.io.cmd
  payload : takenPayload es ++ t.io.pay = s.io.pay
  reads : takenReads es ++ t.io.srd = s.io.srd
  ctls : takenCtls es ++ t.io.sctl = s.io.sctl

theorem Takes.trans {s t u : State} {es fs : List Event} (hst : Takes s t es) (htu : Takes t u fs) :
    Takes s u (es ++ fs) where
  trace := by rw [htu.trace, hst.trace, List.append_assoc]
  headers := by rw [takenHeaders_append, List.append_assoc, htu.headers, hst.headers]
  payload := by rw [takenPayload_append, List.append_assoc, htu.payload, hst.payload]
  reads := by rw [takenReads_append, List.append_assoc, htu.reads, hst.reads]
  ctls := by rw [takenCtls_append, List.append_assoc, htu.ctls, hst.ctls]

/-- Where the ports stay as they are nothing is taken. -/
theorem takes_of_io_eq {s t : State} (h : t.io = s.io) : Takes s t [] :=
  ⟨by simp [h], by rw [h]; rfl, by rw [h]; rfl, by rw [h]; rfl, by rw [h]; rfl⟩

theorem complete_takes (c : Status) (v : Word64) (err : Option SrcErr) (s : State) :
    Takes s (s.complete c v err) [cplEvent s c v err] := ⟨rfl, rfl, rfl, rfl, rfl⟩

theorem emitBlock_takes (s : State) : Takes s s.emitBlock ((plainBytes s.st).map .out) :=
  ⟨rfl, by simp, by simp, by simp, by simp⟩

/-- Taking a header takes its payload with it (30_encoding.md rule R81). -/
theorem accept_takes {s : State} {h : Header} {rest : List Header} (hc : s.io.cmd = h :: rest) :
    Takes s (s.accept h) [.accept h (s.io.pay.take (hdrPlen h).toNat)] :=
  ⟨rfl, by simp [takenHeaders, hc], by simp [takenPayload], rfl, rfl⟩

/-- A read response is taken from the front of SRD (20_memory.md rule R53). -/
theorem takeReadResp_takes {s : State} {r : ReadResp} {rest : List ReadResp} (hs : s.io.srd = r :: rest) :
    Takes s (s.takeReadResp r) [.readResp r] :=
  ⟨rfl, rfl, rfl, by simp [takenReads, hs], rfl⟩

/-- A control answer is taken from the front of SCTL (20_memory.md rule R56). -/
theorem takeCtlResp_takes {s : State} {r : CtlResp} {rest : List CtlResp} (hs : s.io.sctl = r :: rest) :
    Takes s (s.takeCtlResp r) [.ctlResp r] :=
  ⟨rfl, rfl, rfl, rfl, by simp [takenCtls, hs]⟩

/-- LOOP_TEST takes nothing but may complete (42_reader.md rule R142). -/
theorem LoopTo.takes {s t : State} (hl : LoopTo s t) : ∃ es, Takes s t es := by
  have hinit : Takes s s.ensureInit.clearFill [] := takes_of_io_eq (by simp)
  cases hl with
  | done _ => exact ⟨_, complete_takes _ _ _ _⟩
  | ended _ _ => exact ⟨_, hinit.trans (complete_takes _ _ _ _)⟩
  | fetch _ _ => exact ⟨_, takes_of_io_eq (by simp)⟩

theorem CommandTo.takes {s t : State} {i : Option Instr} (ht : CommandTo s i t) : ∃ es, Takes s t es := by
  cases ht with
  | raised c => exact ⟨_, complete_takes _ _ _ _⟩
  | loaded k _ =>
    have hload : Takes s (s.loadKey k) [] := takes_of_io_eq (by simp)
    exact ⟨_, hload.trans (complete_takes _ _ _ _)⟩
  | passed op arg _ => exact ⟨[.ctlReq op arg], rfl, rfl, rfl, rfl, rfl⟩
  | read count _ hl =>
    have hstart : Takes s (s.startRead count) [] := takes_of_io_eq (by simp)
    obtain ⟨es, hes⟩ := hl.takes
    exact ⟨_, hstart.trans hes⟩

/-- A read response takes itself (42_reader.md rules R145 to R147). -/
theorem ReadRespTo.takes {s t : State} {r : ReadResp} {rest : List ReadResp} (ht : ReadRespTo s r t)
    (hs : s.io.srd = r :: rest) : ∃ es, Takes s t es := by
  have htake := takeReadResp_takes hs
  cases ht with
  | full _ => exact ⟨_, htake.trans (takes_of_io_eq (by simp))⟩
  | short _ => exact ⟨_, htake.trans (takes_of_io_eq (by simp))⟩
  | ended _ _ =>
    have hend : Takes (s.takeReadResp r) (s.takeReadResp r).markEof [] := takes_of_io_eq (by simp)
    exact ⟨_, htake.trans (hend.trans (complete_takes _ _ _ _))⟩
  | partialBlock _ _ => exact ⟨_, htake.trans (takes_of_io_eq (by simp))⟩
  | @error e =>
    have hclear : Takes (s.takeReadResp (.error e)) (s.takeReadResp (.error e)).clearFill [] := takes_of_io_eq (by simp)
    exact ⟨_, htake.trans (hclear.trans (complete_takes _ _ _ _))⟩

/-- Outside reset what a step takes is what leaves the front of the ports. -/
theorem StepTo.takes {s t : State} (ht : StepTo s t) (hrst : s.io.rst = false) : ∃ es, Takes s t es := by
  cases ht with
  | reset hr => simp [hrst] at hr
  | wait _ => exact ⟨_, takes_of_io_eq (by simp)⟩
  | command h rest _ _ hc _ ht =>
    obtain ⟨es, hes⟩ := ht.takes
    exact ⟨_, (accept_takes hc).trans hes⟩
  | issue _ _ _ => exact ⟨[.readReq _], rfl, rfl, rfl, rfl, rfl⟩
  | response r rest _ _ _ hs _ ht => exact ht.takes hs
  | keystream _ _ => exact ⟨_, takes_of_io_eq (by simp)⟩
  | append _ _ ht =>
    obtain ⟨es, hes⟩ := ht.takes
    exact ⟨_, (emitBlock_takes s).trans hes⟩
  | answerOk v rest _ _ hs => exact ⟨_, (takeCtlResp_takes hs).trans (complete_takes _ _ _ _)⟩
  | answerError e rest _ _ hs => exact ⟨_, (takeCtlResp_takes hs).trans (complete_takes _ _ _ _)⟩

/-- Where reset is asserted it is the step (70_reset_and_hazards.md rule R202). -/
theorem step_of_rst {s : State} (hr : s.io.rst = true) : step s = .next s.assertReset := if_pos hr

/-- Reset withdraws the front of what CMD and PAY offer, or nothing (70_reset_and_hazards.md rule R202). -/
theorem assertReset_suffix (s : State) : s.assertReset.io.cmd <:+ s.io.cmd ∧ s.assertReset.io.pay <:+ s.io.pay := by
  simp only [State.assertReset]
  split
  · exact ⟨List.tail_suffix _, List.nil_suffix⟩
  · exact ⟨List.suffix_refl _, List.suffix_refl _⟩

/-- What a move can do: the block's step, or an offer of the host or the source where the spec gives it that move
(20_memory.md rules R52, R54, R56 and R57). -/
inductive MoveTo (s : State) : Move → State → Prop where
  | block {t : State} (h : step s = .next t) : MoveTo s .block t
  | hostHeader (h : Header) : MoveTo s (.hostHeader h) { s with io := { s.io with cmd := s.io.cmd ++ [h] } }
  | hostPayload (x : Byte) : MoveTo s (.hostPayload x) { s with io := { s.io with pay := s.io.pay ++ [x] } }
  | delay (waiting : Bool) : MoveTo s (.delay waiting) { s with io := { s.io with stalled := waiting } }
  | sourceRead (r : ReadResp) (hf : s.st.fsm = .filling) (hq : s.st.req ≠ 0) (hs : s.io.srd = [])
      (hc : readContract s.st.req r = true) : MoveTo s (.sourceRead r) { s with io := { s.io with srd := [r] } }
  | sourceCtl (r : CtlResp) (hf : s.st.fsm = .ctlWait) (hs : s.io.sctl = []) :
      MoveTo s (.sourceCtl r) { s with io := { s.io with sctl := [r] } }
  | assertReset : MoveTo s .assertReset { s with io := { s.io with rst := true } }

theorem awaitsRead_iff {s : State} :
    awaitsRead s = true ↔ s.st.fsm = .filling ∧ s.st.req ≠ 0 ∧ s.io.srd = [] := by
  simp [awaitsRead, and_assoc]

theorem awaitsCtl_iff {s : State} : awaitsCtl s = true ↔ s.st.fsm = .ctlWait ∧ s.io.sctl = [] := by
  simp [awaitsCtl]

theorem move_moveTo {m : Move} {s t : State} (h : move m s = .next t) : MoveTo s m t := by
  cases m with
  | block => exact .block h
  | hostHeader w => cases h; exact .hostHeader w
  | hostPayload x =>
    simp only [move] at h
    split at h
    · cases h; exact .hostPayload x
    · cases h
  | delay w => cases h; exact .delay w
  | sourceRead r =>
    simp only [move] at h
    split at h
    · rename_i hmay
      obtain ⟨hawaits, hc⟩ := Bool.and_eq_true_iff.mp hmay
      obtain ⟨hf, hq, hs⟩ := awaitsRead_iff.mp hawaits
      cases h
      exact .sourceRead r hf hq hs hc
    · cases h
  | sourceCtl r =>
    simp only [move] at h
    split at h
    · rename_i hawaits
      obtain ⟨hf, hs⟩ := awaitsCtl_iff.mp hawaits
      cases h
      exact .sourceCtl r hf hs
    · cases h
  | assertReset => cases h; exact .assertReset

/-- From `s` to `t` nothing is transferred, and what the move `m` offers goes behind what its port holds (20_memory.md
rule R52). -/
structure Offers (m : Move) (s t : State) : Prop where
  trace : t.io.trace = s.io.trace
  headers : t.io.cmd = s.io.cmd ++ offeredHeaders m
  payload : t.io.pay = s.io.pay ++ offeredPayload m
  reads : t.io.srd = s.io.srd ++ offeredReads m
  ctls : t.io.sctl = s.io.sctl ++ offeredCtls m

/-- Every move but the block's only offers; the source answers on a port that holds nothing (20_memory.md rule R57). -/
theorem MoveTo.offers {m : Move} {s t : State} (ht : MoveTo s m t) (hm : m ≠ .block) : Offers m s t := by
  cases ht with
  | block _ => exact absurd rfl hm
  | sourceRead r _ _ hs _ => constructor <;> simp [hs, offeredHeaders, offeredPayload, offeredReads, offeredCtls]
  | sourceCtl r _ hs => constructor <;> simp [hs, offeredHeaders, offeredPayload, offeredReads, offeredCtls]
  | _ => constructor <;> simp [offeredHeaders, offeredPayload, offeredReads, offeredCtls]

/-- Settles O46: a reset only withdraws, any other step of the block takes from the front of its ports, and every other
move only offers. -/
theorem transfersAreNeverLost : Obligations.TransfersAreNeverLost := by
  intro m s t h
  by_cases hm : m = .block
  · subst hm
    by_cases hr : s.io.rst = true
    · rw [move, step_of_rst hr] at h
      cases h
      refine ⟨[.reset], rfl, by simp, ?_⟩
      rw [if_pos ⟨rfl, hr⟩]
      exact ⟨rfl, assertReset_suffix s⟩
    · obtain ⟨es, ht⟩ := (step_stepTo h).takes (by simpa using hr)
      refine ⟨es, ht.trace, by simp, ?_⟩
      rw [if_neg (by simp [hr])]
      simpa [offeredHeaders, offeredPayload, offeredReads, offeredCtls] using
        And.intro ht.headers ⟨ht.payload, ht.reads, ht.ctls⟩
  · have ho := (move_moveTo h).offers hm
    refine ⟨[], by simp [ho.trace], by simp, ?_⟩
    rw [if_neg (by simp [hm])]
    exact ⟨ho.headers, ho.payload, ho.reads, ho.ctls⟩

end Sys2Proof.Machine
end

section
/-! PROOFS. Family 20_memory.md: the invariant of the whole system, kept by every move. -/

namespace Sys2Proof.Machine

/-- Where nothing waits on SRD or SCTL the source has kept its contract. -/
theorem sourceInv_of_empty {s : State} (hr : s.io.srd = []) (hc : s.io.sctl = []) : SourceInv s :=
  ⟨.inl hr, .inl hc⟩

/-- What `SourceInv` says of SRD: nothing waits there but one answer to the outstanding request, within its contract
(20_memory.md rules R54 and R57). -/
def ReadInv (s : State) : Prop :=
  s.io.srd = [] ∨ ∃ r, s.io.srd = [r] ∧ s.st.fsm = .filling ∧ 0 < s.st.req ∧ readContract s.st.req r = true

theorem SourceInv.readInv {s : State} (hs : SourceInv s) : ReadInv s := hs.read

/-- A read answer waits only in `FILLING`, for the request outstanding. -/
theorem ReadInv.srd_eq_nil {s : State} (hs : ReadInv s) (h : s.st.fsm ≠ .filling ∨ s.st.req = 0) :
    s.io.srd = [] := by
  rcases hs with hnil | ⟨_, _, hf, hq, _⟩
  · exact hnil
  · exact (h.elim (absurd hf) (Nat.ne_of_gt hq)).elim

/-- The answer taken was the only one waiting on SRD. -/
theorem ReadInv.srd_rest {s : State} (hs : ReadInv s) {r : ReadResp} {rest : List ReadResp}
    (h : s.io.srd = r :: rest) : rest = [] := by
  rcases hs with hnil | ⟨_, hone, _⟩
  · simp [hnil] at h
  · simp_all

/-- A control answer waits only in `CTL_WAIT` (20_memory.md rule R57). -/
theorem SourceInv.sctl_eq_nil {s : State} (hs : SourceInv s) (h : s.st.fsm ≠ .ctlWait) : s.io.sctl = [] := by
  rcases hs.ctl with hnil | ⟨_, _, hf⟩
  · exact hnil
  · exact absurd hf h

/-- The answer taken was the only one waiting on SCTL (20_memory.md rule R57). -/
theorem SourceInv.sctl_rest {s : State} (hs : SourceInv s) {r : CtlResp} {rest : List CtlResp}
    (h : s.io.sctl = r :: rest) : rest = [] := by
  rcases hs.ctl with hnil | ⟨_, hone, _⟩
  · simp [hnil] at h
  · simp_all

/-- A step that finds nothing waiting on SRD and SCTL leaves nothing there. -/
theorem StepTo.sourceInv_of_quiet {s t : State} (ht : StepTo s t) (hrst : s.io.rst = false) (hr : s.io.srd = [])
    (hc : s.io.sctl = []) : SourceInv t := by
  obtain ⟨es, htakes⟩ := ht.takes hrst
  have hreads : takenReads es ++ t.io.srd = [] := by rw [htakes.reads, hr]
  have hctls : takenCtls es ++ t.io.sctl = [] := by rw [htakes.ctls, hc]
  exact sourceInv_of_empty (List.append_eq_nil_iff.mp hreads).2 (List.append_eq_nil_iff.mp hctls).2

/-- A response leaves SRD what stood behind it, and SCTL alone (42_reader.md rules R145 to R147). -/
theorem ReadRespTo.srd_sctl_eq {s t : State} {r : ReadResp} (ht : ReadRespTo s r t) :
    t.io.srd = s.io.srd.tail ∧ t.io.sctl = s.io.sctl := by
  cases ht <;> exact ⟨rfl, rfl⟩

/-- The block answers no request itself: after a step no answer waits but one that waited and was not taken. -/
theorem StepTo.sourceInv {s t : State} (ht : StepTo s t) (hs : SourceInv s) : SourceInv t := by
  have quiet (hr : s.io.rst = false) (hf : s.st.fsm ≠ .filling ∨ s.st.req = 0) (hf' : s.st.fsm ≠ .ctlWait) :
      SourceInv t := ht.sourceInv_of_quiet hr (hs.readInv.srd_eq_nil hf) (hs.sctl_eq_nil hf')
  cases ht with
  | reset _ => exact sourceInv_of_empty rfl rfl
  | wait _ => exact hs
  | command _ _ hr hf _ _ _ => exact quiet hr (by simp [hf]) (by simp [hf])
  | issue hr hf hq => exact quiet hr (.inr hq) (by simp [hf])
  | response r rest _ hf _ hsrd _ ht =>
    obtain ⟨hread, hctl⟩ := ht.srd_sctl_eq
    have hrest := hs.readInv.srd_rest hsrd
    exact sourceInv_of_empty (by simp [hread, hsrd, hrest]) (by rw [hctl, hs.sctl_eq_nil (by simp [hf])])
  | keystream hr hf => exact quiet hr (by simp [hf]) (by simp [hf])
  | append hr hf _ => exact quiet hr (by simp [hf]) (by simp [hf])
  | answerOk v rest _ hf hsctl =>
    exact sourceInv_of_empty (hs.readInv.srd_eq_nil (by simp [hf])) (by simp [hsctl, hs.sctl_rest hsctl])
  | answerError e rest _ hf hsctl =>
    exact sourceInv_of_empty (hs.readInv.srd_eq_nil (by simp [hf])) (by simp [hsctl, hs.sctl_rest hsctl])

/-- Of the ports the invariant of the system reads the record of transfers and the source's side of SRD and SCTL. -/
theorem SystemInv.of_ports {s : State} (hs : SystemInv s) {io : Ports} (htrace : io.trace = s.io.trace)
    (hsource : SourceInv { s with io := io }) : SystemInv { s with io := io } := by
  obtain ⟨rst, stalled, cmd, pay, srd, sctl, trace⟩ := io
  cases htrace
  exact
    { block := { hs.block with }
      streams := { hs.streams with }
      protocol := { hs.protocol with }
      value := { hs.value with }
      source := hsource }

/-- Settles O43: a step keeps each part of the invariant, and an offer of the source is one answer, within its contract,
to the request outstanding. -/
theorem movesKeepSystemInv : Obligations.MovesKeepSystemInv := by
  intro m s t hs h
  cases move_moveTo h with
  | block h =>
    exact
      { block := stepKeepsBlockInv s t hs.block h
        streams := stepKeepsStreamInv s t hs.block hs.streams h
        protocol := stepKeepsProtocolInv s t hs.block hs.protocol h
        value := stepKeepsValueInv s t hs.block hs.value h
        source := (step_stepTo h).sourceInv hs.source }
  | hostHeader w => exact hs.of_ports rfl { hs.source with }
  | hostPayload x => exact hs.of_ports rfl { hs.source with }
  | delay w => exact hs.of_ports rfl { hs.source with }
  | sourceRead r hf hq _ hc =>
    exact hs.of_ports rfl ⟨.inr ⟨r, rfl, hf, Nat.pos_of_ne_zero hq, hc⟩, hs.source.ctl⟩
  | sourceCtl r hf _ => exact hs.of_ports rfl ⟨hs.source.read, .inr ⟨r, rfl, hf⟩⟩
  | assertReset => exact hs.of_ports rfl { hs.source with }

end Sys2Proof.Machine
end

section
/-! PROOFS. Family 20_memory.md: the assembly of a block from short reads, one request and one response at a time. -/

namespace Sys2Proof.Machine

theorem steps_succ {s t : State} (k : Nat) (h : step s = .next t) : steps (k + 1) s = steps k t := by
  rw [steps, h]

/-- A `DATA` response to the request the block sends next (42_reader.md rules R144 and R145). -/
def State.fetchData (b : List Byte) (s : State) : State := s.issueRead.onReadResp (.data b)

theorem State.fetchData_st (b : List Byte) (s : State) :
    (s.fetchData b).st =
      { s.st with
        fbuf := writeFill s.st.fbuf s.st.fcnt b
        fcnt := s.st.fcnt + b.length
        req := 0
        fsm := if s.st.fcnt + b.length = 16 then .decrypting else s.st.fsm } := by
  simp only [State.fetchData, State.onReadResp, State.onData]
  split <;> simp_all

theorem State.fetchData_io (b : List Byte) (s : State) :
    (s.fetchData b).io =
      { s.io with
        srd := s.io.srd.tail
        trace := s.io.trace ++ [.readReq (16 - s.st.fcnt), .readResp (.data b)] } := by
  simp only [State.fetchData, State.onReadResp, State.onData]
  split <;> simp

theorem State.fetchData_ctrIncBits (b : List Byte) (s : State) : (s.fetchData b).ctrIncBits = s.ctrIncBits := by
  simp only [State.fetchData, State.onReadResp, State.onData]
  split <;> simp

/-- Two steps take a `DATA` response of at most the remainder: the request and the response (42_reader.md rules R144 and
R145). -/
theorem steps_fetchData {s : State} {b : List Byte} {rest : List ReadResp} (k : Nat) (hfree : Free s)
    (hf : s.st.fsm = .filling) (hq : s.st.req = 0) (hs : s.io.srd = .data b :: rest) (hb : 1 ≤ b.length)
    (hfit : s.st.fcnt + b.length ≤ 16) : steps (k + 2) s = steps k (s.fetchData b) := by
  have hcontract : readContract s.issueRead.st.req (.data b) = true := by
    simp [readContract, hb, Nat.le_sub_of_add_le' hfit]
  have hissue : step s = .next s.issueRead := by rw [hfree.step_eq, blockStep_issue hf hq]
  have htake : step s.issueRead = .next (s.fetchData b) := by
    have hfree' : Free s.issueRead := hfree
    have hopen : s.issueRead.st.req ≠ 0 := by simp; omega
    exact hfree'.step_eq.trans (blockStep_response (s := s.issueRead) hf hopen hs hcontract)
  rw [steps_succ _ hissue, steps_succ _ htake]

/-- From `s` to `t` the bytes of `chunks` are appended to the fill, each chunk after a request for the remainder; SRD
then holds `rest`, and nothing else changes but the sequencer (20_memory.md rule R66). -/
structure FillsTo (s t : State) (chunks : List (List Byte)) (rest : List ReadResp) : Prop where
  bytes : t.st.fbuf.toList.take t.st.fcnt = s.st.fbuf.toList.take s.st.fcnt ++ chunks.flatten
  st : t.st = { s.st with fbuf := t.st.fbuf, fcnt := s.st.fcnt + chunks.flatten.length, fsm := t.st.fsm }
  io : t.io = { s.io with srd := rest, trace := s.io.trace ++ fillEvents (16 - s.st.fcnt) chunks }
  ctrIncBits : t.ctrIncBits = s.ctrIncBits

theorem fillsTo_refl (s : State) : FillsTo s s [] s.io.srd := ⟨by simp, rfl, by simp [fillEvents], rfl⟩

/-- A chunk fetched before others is assembled before them. -/
theorem FillsTo.fetchData {s t : State} {b : List Byte} {chunks : List (List Byte)} {rest : List ReadResp}
    (hfit : s.st.fcnt + b.length ≤ 16) (hq : s.st.req = 0) (h : FillsTo (s.fetchData b) t chunks rest) :
    FillsTo s t (b :: chunks) rest where
  bytes := by
    have hb := h.bytes
    simp only [State.fetchData_st, take_writeFill _ hfit] at hb
    simpa using hb
  st := by
    have hst := h.st
    simp only [State.fetchData_st] at hst
    rw [hst]
    simp [hq, Nat.add_assoc]
  io := by rw [h.io]; simp [State.fetchData_io, State.fetchData_st, fillEvents, Nat.sub_add_eq]
  ctrIncBits := by rw [h.ctrIncBits, State.fetchData_ctrIncBits]

/-- Where the sequencer stands with `n` bytes of a block fetched (42_reader.md rule R145). -/
def fillFsm (n : Nat) : Fsm := if n = 16 then .decrypting else .filling

/-- Two steps for each chunk assemble what is missing of a block (42_reader.md rule R154). -/
theorem steps_fill (chunks : List (List Byte)) (rest : List ReadResp) (s : State) (hfree : Free s)
    (hf : s.st.fsm = fillFsm s.st.fcnt) (hq : s.st.req = 0) (hs : s.io.srd = chunks.map .data ++ rest)
    (hne : ∀ c ∈ chunks, c ≠ []) (hlen : s.st.fcnt + chunks.flatten.length = 16) :
    ∃ t, steps (2 * chunks.length) s = .next t ∧ t.st.fsm = .decrypting ∧ FillsTo s t chunks rest := by
  induction chunks generalizing s with
  | nil =>
    have hfull : s.st.fcnt = 16 := by simpa using hlen
    have hrest : s.io.srd = rest := by simpa using hs
    exact ⟨s, rfl, by rw [hf, hfull]; rfl, hrest ▸ fillsTo_refl s⟩
  | cons b chunks ih =>
    have hb : 1 ≤ b.length := List.length_pos_of_ne_nil (hne b (by simp))
    have hlen' : s.st.fcnt + b.length + chunks.flatten.length = 16 := by simpa [Nat.add_assoc] using hlen
    have hfill : s.st.fsm = .filling := by rw [hf, fillFsm, if_neg (by omega)]
    have hsteps := steps_fetchData (2 * chunks.length) hfree hfill hq hs hb (by omega)
    obtain ⟨t, ht, hdec, hto⟩ := ih (s.fetchData b) (by simpa [Free, State.fetchData_io] using hfree)
      (by simp [State.fetchData_st, fillFsm, hfill]) (by simp [State.fetchData_st])
      (by simp [State.fetchData_io, hs]) (fun c hc => hne c (by simp [hc])) (by simpa [State.fetchData_st] using hlen')
    exact ⟨t, by rw [List.length_cons, Nat.mul_succ, hsteps, ht], hdec, hto.fetchData (by omega) hq⟩

/-- Settles O20: from an empty fill the chunks assembled are the whole block. -/
theorem shortReadsAssembleBlock : Obligations.ShortReadsAssembleBlock := by
  intro s chunks rest hfree hf hq hn hs hne hlen
  obtain ⟨t, ht, hdec, hto⟩ := steps_fill chunks rest s hfree (by rw [hf, hn]; rfl) hq hs hne (by omega)
  have hst : t.st = { s.st with fbuf := t.st.fbuf, fcnt := 16, fsm := .decrypting } := by
    rw [← hdec]
    simpa [hn, hlen] using hto.st
  have hcnt : t.st.fcnt = 16 := by rw [hst]
  have hall : t.st.fbuf.toList.take 16 = t.st.fbuf.toList := List.take_of_length_le (by simp)
  refine ⟨t, ht, ?_, hst, by simpa [hn] using hto.io, hto.ctrIncBits⟩
  simpa [hn, hcnt, hall] using hto.bytes

end Sys2Proof.Machine
end

section
/-! PROOFS. Family 20_memory.md: a READ whose source keeps answering completes. Each move of the driven system brings
the READ nearer its end by a measure that starts at 50 for each block still to produce. -/

namespace Sys2Proof.Machine

/-- The moves a driven READ may still need: 50 for each further block, and in the block at hand three for each byte to
fetch, one for the keystream block and one for the emission (42_reader.md rule R157). -/
def movesLeft (s : State) : Nat :=
  50 * ((s.st.count.toNat - s.st.produced.toNat + 15) / 16 - 1) +
    match s.st.fsm with
    | .idle => 0
    | .filling => 2 + 3 * (16 - s.st.fcnt) - (if s.st.req = 0 then 0 else 1 + s.io.srd.length)
    | .decrypting => 2
    | .appending => 1
    | .ctlWait => 0

/-- A READ that the system is driving: free to step, and its source keeps its contract (20_memory.md rules R52 and
R54). -/
structure Driven (s : State) : Prop where
  block : BlockInv s
  free : Free s
  reading : s.st.fsm = .filling ∨ s.st.fsm = .decrypting ∨ s.st.fsm = .appending
  read : ReadInv s

/-- The READ has completed in `t`, or is driven on with fewer than `n` moves left. -/
def Advances (n : Nat) (t : State) : Prop := t.st.fsm = .idle ∨ (Driven t ∧ movesLeft t < n)

section
variable {s : State}

/-- What a driven READ needs after a step of the block that leaves nothing on SRD. -/
theorem Driven.of_step {t : State} (hd : Driven s) (h : step s = .next t) (hfree : Free t)
    (hf : t.st.fsm = .filling ∨ t.st.fsm = .decrypting ∨ t.st.fsm = .appending) (hs : t.io.srd = []) : Driven t :=
  ⟨stepKeepsBlockInv s t hd.block h, hfree, hf, .inl hs⟩

/-- A READ that has not completed has a move left. -/
theorem Driven.movesLeft_pos (hd : Driven s) : 0 < movesLeft s := by
  unfold movesLeft
  rcases hd.reading with hf | hf | hf
  · obtain ⟨-, hn⟩ := hd.block.filling hf
    have hs : s.io.srd.length ≤ 1 := by
      rcases hd.read with hs | ⟨_, hs, _⟩ <;> simp [hs]
    simp only [hf]
    split <;> omega
  · simp [hf]
  · simp [hf]

/-- Sending a request brings the READ nearer its end (42_reader.md rule R144). -/
theorem Driven.issue (hd : Driven s) (hf : s.st.fsm = .filling) (hq : s.st.req = 0) :
    ∃ t, step s = .next t ∧ Advances (movesLeft s) t := by
  have hstep : step s = .next s.issueRead := by rw [hd.free.step_eq, blockStep_issue hf hq]
  have hs := hd.read.srd_eq_nil (.inr hq)
  obtain ⟨-, hn⟩ := hd.block.filling hf
  refine ⟨_, hstep, .inr ⟨hd.of_step hstep hd.free (.inl hf) hs, ?_⟩⟩
  have hopen : 16 - s.st.fcnt ≠ 0 := by omega
  simp only [movesLeft, State.issueRead_st, State.issueRead_io, hf, hq, hs, if_neg hopen, if_pos, List.length_nil]
  omega

/-- The source's answer brings the READ nearer its end (20_memory.md rule R54). -/
theorem Driven.answer (hd : Driven s) {r : ReadResp} (ha : awaitsRead s = true)
    (hc : readContract s.st.req r = true) :
    ∃ t, move (.sourceRead r) s = .next t ∧ Advances (movesLeft s) t := by
  obtain ⟨hf, hq, hs⟩ := awaitsRead_iff.mp ha
  obtain ⟨-, hn⟩ := hd.block.filling hf
  refine ⟨_, if_pos (by simp [ha, hc]), .inr ⟨?_, ?_⟩⟩
  · exact ⟨{ hd.block with }, hd.free, hd.reading, .inr ⟨r, rfl, hf, Nat.pos_of_ne_zero hq, hc⟩⟩
  · simp only [movesLeft, hf, hs, if_neg hq, List.length_nil, List.length_singleton]
    omega

/-- A response leaves reset and delay as they are. -/
theorem ReadRespTo.free {t : State} {r : ReadResp} (ht : ReadRespTo s r t) (hfree : Free s) : Free t := by
  cases ht <;> simpa [Free] using hfree

/-- Taking a response brings the READ nearer its end: it fetches a byte, ends the fetch or completes (42_reader.md rules
R145 to R147). -/
theorem Driven.response (hd : Driven s) {r : ReadResp} (hf : s.st.fsm = .filling) (hq : s.st.req ≠ 0)
    (hs : s.io.srd = [r]) (hc : readContract s.st.req r = true) :
    ∃ t, step s = .next t ∧ Advances (movesLeft s) t := by
  have hstep : step s = .next (s.onReadResp r) := by rw [hd.free.step_eq, blockStep_response hf hq hs hc]
  have ht := State.onReadResp_readRespTo r s
  generalize s.onReadResp r = t at hstep ht
  obtain ⟨-, hn⟩ := hd.block.filling hf
  have hsrd : t.io.srd = [] := by rw [ht.srd_sctl_eq.1, hs]; rfl
  have hon := hd.of_step hstep (ht.free hd.free)
  have hmoves : movesLeft s =
      50 * ((s.st.count.toNat - s.st.produced.toNat + 15) / 16 - 1) + (2 + 3 * (16 - s.st.fcnt) - 2) := by
    simp [movesLeft, hf, hq, hs]
  refine ⟨t, hstep, ?_⟩
  rw [hmoves]
  cases ht with
  | full _ =>
    refine .inr ⟨hon (by simp) hsrd, ?_⟩
    simp [movesLeft]
    omega
  | @short b _ =>
    obtain ⟨hpos, hfit⟩ := hd.block.fill_fits hq hc
    refine .inr ⟨hon (by simp [hf]) hsrd, ?_⟩
    simp [movesLeft, hf]
    omega
  | ended _ _ => exact .inl rfl
  | partialBlock _ _ =>
    refine .inr ⟨hon (by simp) hsrd, ?_⟩
    simp [movesLeft]
    omega
  | error => exact .inl rfl

/-- KSBLOCK brings the READ nearer its end (42_reader.md rule R148). -/
theorem Driven.keystream (hd : Driven s) (hf : s.st.fsm = .decrypting) :
    ∃ t, step s = .next t ∧ Advances (movesLeft s) t := by
  have hstep : step s = .next (s.ksBlock.goto .appending) := by rw [hd.free.step_eq, blockStep_decrypting hf]
  have hs := hd.read.srd_eq_nil (.inl (by simp [hf]))
  refine ⟨_, hstep, .inr ⟨hd.of_step hstep hd.free (.inr (.inr rfl)) hs, ?_⟩⟩
  simp [movesLeft, hf]

/-- Emitting a block completes the READ or leaves it a block less to produce (42_reader.md rule R149). -/
theorem Driven.emission (hd : Driven s) (hf : s.st.fsm = .appending) :
    ∃ t, step s = .next t ∧ Advances (movesLeft s) t := by
  have hstep := step_appending hf hd.free
  have ht := s.emitBlock.loopTest_loopTo
  have hprod := hd.block.produced_emitBlock hf
  generalize s.emitBlock.loopTest = t at hstep ht
  refine ⟨t, hstep, ?_⟩
  cases ht with
  | done _ => exact .inl rfl
  | ended _ _ => exact .inl rfl
  | fetch hlt he =>
    have hfull : s.st.fcnt = 16 := (hd.block.blockReady (.inr hf)).2 he
    have hs : s.io.srd = [] := hd.read.srd_eq_nil (.inl (by simp [hf]))
    refine .inr ⟨hd.of_step hstep (by simpa [Free] using hd.free) (.inl rfl) (by simp [hs]), ?_⟩
    have hcount : s.emitBlock.st.count = s.st.count := rfl
    rw [hcount, hprod, hfull] at hlt
    have hreq : s.st.req = 0 := hd.block.req_eq_zero (by simp [hf])
    have hp : (s.emitBlock.ensureInit.clearFill.goto .filling).st.produced = s.emitBlock.st.produced := by
      simp [State.ensureInit_st]
    rw [movesLeft, hp, hprod, hfull]
    simp [movesLeft, State.ensureInit_st, hf, hreq]
    omega

/-- The move a driven system makes is answered and brings the READ nearer its end. -/
theorem Driven.drives (hd : Driven s) {r : ReadResp} (hr : readContract s.st.req r = true) :
    ∃ t, move (if awaitsRead s then .sourceRead r else .block) s = .next t ∧ Advances (movesLeft s) t := by
  by_cases ha : awaitsRead s = true
  · rw [if_pos ha]
    exact hd.answer ha hr
  rw [if_neg ha, move]
  rcases hd.reading with hf | hf | hf
  · by_cases hq : s.st.req = 0
    · exact hd.issue hf hq
    · rcases hd.read with hs | ⟨w, hs, -, -, hc⟩
      · exact absurd (awaitsRead_iff.mpr ⟨hf, hq, hs⟩) ha
      · exact hd.response hf hq hs hc
  · exact hd.keystream hf
  · exact hd.emission hf

end

/-- A driven READ is back in `IDLE` after at most the moves it has left. -/
theorem Driven.completes {src : State → ReadResp} (hsrc : ∀ u, readContract u.st.req (src u) = true) (n : Nat)
    {s : State} (hd : Driven s) (hn : movesLeft s ≤ n) : ∃ k, k ≤ n ∧ (drive src k s).st.fsm = .idle := by
  induction n generalizing s with
  | zero => exact absurd hd.movesLeft_pos (by omega)
  | succ n ih =>
    obtain ⟨t, hmove, ht⟩ := hd.drives (hsrc s)
    have hdrive (k : Nat) : drive src (k + 1) s = drive src k t := by rw [drive, hmove]
    rcases ht with hidle | ⟨ht, hlt⟩
    · exact ⟨1, by omega, by rw [hdrive]; exact hidle⟩
    · obtain ⟨k, hk, hidle⟩ := ih ht (by omega)
      exact ⟨k + 1, by omega, by rw [hdrive]; exact hidle⟩

/-- Settles O21: a READ that fills has at most 50 moves left for each block still to produce. -/
theorem answeredReadCompletes : Obligations.AnsweredReadCompletes := by
  intro src s hsrc hi hfree hf hs
  refine Driven.completes hsrc _ ⟨hi, hfree, .inl hf, .inl hs⟩ ?_
  obtain ⟨-, -, hlt⟩ := hi.reading (.inl hf)
  simp only [movesLeft, hf]
  omega

end Sys2Proof.Machine
end

section
/-! PROOFS. Family 30_encoding.md: the decoder answers exactly by the rows of the opcode table (`decode_eq_ok_iff`), so the
round trips with the encoder, the legal headers and the assembly lines are each a case for every row. -/

namespace Sys2Proof

/-- A header is the one made of its fields (30_encoding.md rule R80). -/
theorem mkHeader_eq_iff {op x : BitVec 8} {plen : BitVec 16} {rsv : BitVec 32} {arg : BitVec 64} {h : Header} :
    mkHeader op x plen rsv arg = h ↔
      hdrOp h = op ∧ hdrX h = x ∧ hdrPlen h = plen ∧ hdrRsv h = rsv ∧ hdrArg h = arg := by
  rw [eq_comm, ← mkHeader_inj, mkHeader_fields]

theorem fixedKeyLoad_iff {h : Header} : fixedKeyLoad h = true ↔ hdrX h = 0 ∧ hdrRsv h = 0 ∧ hdrArg h = 0 := by
  simp [fixedKeyLoad, and_assoc]

theorem fixedNoPayload_iff {h : Header} : fixedNoPayload h = true ↔ hdrX h = 0 ∧ hdrPlen h = 0 ∧ hdrRsv h = 0 := by
  simp [fixedNoPayload, and_assoc]

/-- The rows without operand fix every field after `OP` (30_encoding.md rule R84). -/
theorem fixedNoPayload_and_arg_iff {h : Header} : (fixedNoPayload h && hdrArg h == 0) = true ↔
    hdrX h = 0 ∧ hdrPlen h = 0 ∧ hdrRsv h = 0 ∧ hdrArg h = 0 := by
  rw [Bool.and_eq_true, beq_iff_eq, fixedNoPayload_iff, and_assoc, and_assoc]

theorem fixedNoPayload_and_arg_mkHeader (op : BitVec 8) :
    (fixedNoPayload (mkHeader op 0 0 0 0) && hdrArg (mkHeader op 0 0 0 0) == 0) = true :=
  fixedNoPayload_and_arg_iff.mpr (by simp)

/-- `zext_48` keeps the count in `ARG[47:0]` (30_encoding.md rule R83). -/
theorem extractLsb'_readArg (count : BitVec 48) : (count.setWidth 64).extractLsb' 0 48 = count := by
  rw [BitVec.setWidth_eq_append (by decide : 48 ≤ 64)]
  exact BitVec.extractLsb'_append_eq_right

/-- READ's `ARG[63:48]` is 0 (30_encoding.md rule R83). -/
theorem extractLsb'_high_readArg (count : BitVec 48) : (count.setWidth 64).extractLsb' 48 16 = 0 := by
  rw [BitVec.setWidth_eq_append (by decide : 48 ≤ 64)]
  exact BitVec.extractLsb'_append_eq_left

/-- An `ARG` with `ARG[63:48]` 0 is the count it holds (30_encoding.md rule R83). -/
theorem setWidth_readArg {a : BitVec 64} (ha : a.extractLsb' 48 16 = 0) : (a.extractLsb' 0 48).setWidth 64 = a := by
  calc (a.extractLsb' 0 48).setWidth 64
      = a.extractLsb' 48 16 ++ a.extractLsb' 0 48 := by rw [ha]; exact BitVec.setWidth_eq_append (by decide)
    _ = a := BitVec.extractLsb'_append_extractLsb' (w := 16) (len := 48)

theorem checkFixed_of_holds {h : Header} {holds : Bool} (hh : holds = true) (i : Instr) :
    checkFixed h holds i = .ok i := if_pos hh

/-- The decoder answers the command of the row that the header holds (30_encoding.md rule R85). -/
theorem DecodesTo.decode_eq {h : Header} {pay : List Byte} {i : Instr} (hd : DecodesTo h pay i) :
    decode h pay = .ok i := by
  cases hd with
  | write op | seek op | posset op => simp [decode, op]
  | ldkey op fixed | ldkeyhex op fixed | read op fixed | close op fixed | length op fixed | posget op fixed
  | flush op fixed | setlen op fixed =>
    simp only [decode, op, BitVec.reduceEq, reduceIte, checkFixed_of_holds fixed]

theorem decode_eq_ok_iff {h : Header} {pay : List Byte} {i : Instr} : decode h pay = .ok i ↔ DecodesTo h pay i :=
  ⟨decode_decodesTo, DecodesTo.decode_eq⟩

/-- A command's header holds the row of that command, with its operands in their fields (30_encoding.md rules R83 and
R84). -/
theorem decodesTo_encode (i : Instr) : DecodesTo (encodeHeader i) i.payload i := by
  cases i with
  | ldkey pay => exact .ldkey (hdrOp_mkHeader ..) (by simp [encodeHeader, fixedKeyLoad_iff])
  | ldkeyhex pay => exact .ldkeyhex (hdrOp_mkHeader ..) (by simp [encodeHeader, fixedKeyLoad_iff])
  | read count =>
    have hcount : (hdrArg (encodeHeader (.read count))).extractLsb' 0 48 = count := by
      rw [encodeHeader, hdrArg_mkHeader, extractLsb'_readArg]
    have row := DecodesTo.read (h := encodeHeader (.read count)) (pay := []) (hdrOp_mkHeader ..)
      (by simp [encodeHeader, fixedNoPayload_iff, fixedReadArg, extractLsb'_high_readArg])
    rwa [hcount] at row
  | close => exact .close (hdrOp_mkHeader ..) (fixedNoPayload_and_arg_mkHeader _)
  | write x rsv arg pay =>
    simpa [encodeHeader, Instr.payload] using DecodesTo.write (pay := pay) (hdrOp_mkHeader 0x20 x _ rsv arg)
  | seek x rsv arg pay =>
    simpa [encodeHeader, Instr.payload] using DecodesTo.seek (pay := pay) (hdrOp_mkHeader 0x21 x _ rsv arg)
  | posset x rsv arg pay =>
    simpa [encodeHeader, Instr.payload] using DecodesTo.posset (pay := pay) (hdrOp_mkHeader 0x22 x _ rsv arg)
  | length => exact .length (hdrOp_mkHeader ..) (fixedNoPayload_and_arg_mkHeader _)
  | posget => exact .posget (hdrOp_mkHeader ..) (fixedNoPayload_and_arg_mkHeader _)
  | flush => exact .flush (hdrOp_mkHeader ..) (fixedNoPayload_and_arg_mkHeader _)
  | setlen value =>
    have row := DecodesTo.setlen (h := encodeHeader (.setlen value)) (pay := []) (hdrOp_mkHeader ..)
      (by simp [encodeHeader, fixedNoPayload_iff])
    rwa [encodeHeader, hdrArg_mkHeader] at row

/-- Settles O27: the encoder's header holds the command's row, and the decoder answers that row. -/
theorem decodeInvertsEncode : Obligations.DecodeInvertsEncode := by
  intro i _
  exact (decodesTo_encode i).decode_eq

/-- The header of a command with payload announces its length in `PLEN` (30_encoding.md rule R81). -/
theorem plenField_eq {pay : List Byte} {plen : BitVec 16} (hlen : pay.length = plen.toNat) : plenField pay = plen := by
  rw [plenField, hlen, BitVec.ofNat_toNat, BitVec.setWidth_eq]

/-- The header and framed payload of a row are the encoding of its command: what the command does not hold, the row
fixes (30_encoding.md rules R84 and R87). -/
theorem DecodesTo.encode_eq {h : Header} {pay : List Byte} {i : Instr} (hd : DecodesTo h pay i)
    (hlen : pay.length = (hdrPlen h).toNat) : encode i = (h, pay) := by
  have hplen := plenField_eq hlen
  cases hd with
  | ldkey op fixed | ldkeyhex op fixed =>
    obtain ⟨hx, hrsv, harg⟩ := fixedKeyLoad_iff.mp fixed
    exact Prod.ext (mkHeader_eq_iff.mpr ⟨op, hx, hplen.symm, hrsv, harg⟩) rfl
  | read op fixed =>
    obtain ⟨hno, hhigh⟩ := Bool.and_eq_true_iff.mp fixed
    obtain ⟨hx, hzero, hrsv⟩ := fixedNoPayload_iff.mp hno
    have harg := setWidth_readArg (eq_of_beq hhigh)
    rw [hzero] at hlen
    exact Prod.ext (mkHeader_eq_iff.mpr ⟨op, hx, hzero, hrsv, harg.symm⟩) (List.length_eq_zero_iff.mp hlen).symm
  | close op fixed | length op fixed | posget op fixed | flush op fixed =>
    obtain ⟨hx, hzero, hrsv, harg⟩ := fixedNoPayload_and_arg_iff.mp fixed
    rw [hzero] at hlen
    exact Prod.ext (mkHeader_eq_iff.mpr ⟨op, hx, hzero, hrsv, harg⟩) (List.length_eq_zero_iff.mp hlen).symm
  | write op | seek op | posset op =>
    exact Prod.ext (mkHeader_eq_iff.mpr ⟨op, rfl, hplen.symm, rfl, rfl⟩) rfl
  | setlen op fixed =>
    obtain ⟨hx, hzero, hrsv⟩ := fixedNoPayload_iff.mp fixed
    rw [hzero] at hlen
    exact Prod.ext (mkHeader_eq_iff.mpr ⟨op, hx, hzero, hrsv, rfl⟩) (List.length_eq_zero_iff.mp hlen).symm

/-- Settles O28: the decoded row fixes every bit that its command does not hold. -/
theorem encodeInvertsDecode : Obligations.EncodeInvertsDecode := by
  intro h pay i hlen hd
  have htake : pay.take (hdrPlen h).toNat = pay := List.take_of_length_le hlen.le
  exact ⟨wellFormed_of_decode_take (htake.symm ▸ hd), (decode_decodesTo hd).encode_eq hlen⟩

namespace Machine

/-- A header that matches a row decodes, whatever the payload (30_encoding.md rule R85). -/
theorem decode_of_legalHeader {h : Header} (pay : List Byte) (hl : legalHeader h = true) :
    ∃ i, decode h pay = .ok i := by
  simp only [decode_eq_ok_iff]
  rcases (legalHeader_iff h).mp hl with ⟨op, fixed⟩ | ⟨op, fixed⟩ | ⟨op, fixed⟩ | ⟨op, fixed⟩ | op | op | op |
    ⟨op, fixed⟩ | ⟨op, fixed⟩ | ⟨op, fixed⟩ | ⟨op, fixed⟩
  · exact ⟨_, .ldkey op fixed⟩
  · exact ⟨_, .ldkeyhex op fixed⟩
  · exact ⟨_, .read op fixed⟩
  · exact ⟨_, .close op fixed⟩
  · exact ⟨_, .write op⟩
  · exact ⟨_, .seek op⟩
  · exact ⟨_, .posset op⟩
  · exact ⟨_, .length op fixed⟩
  · exact ⟨_, .posget op fixed⟩
  · exact ⟨_, .flush op fixed⟩
  · exact ⟨_, .setlen op fixed⟩

/-- Every row's mask covers the whole `OP` (30_encoding.md rule R85). -/
theorem hdrOp_mask {row : Header × Header} (hrow : row ∈ opcodeRows) : hdrOp row.1 = BitVec.allOnes 8 := by
  revert row
  simp [opcodeRows_eq_mkHeader]

theorem hdrOp_of_matchesRow {h : Header} {row : Header × Header} (hrow : row ∈ opcodeRows)
    (hm : matchesRow h row = true) : hdrOp h = hdrOp row.2 := by
  have hand : h &&& row.1 = row.2 := eq_of_beq hm
  calc hdrOp h = hdrOp h &&& hdrOp row.1 := by rw [hdrOp_mask hrow, BitVec.and_allOnes]
    _ = hdrOp (h &&& row.1) := BitVec.extractLsb'_and.symm
    _ = hdrOp row.2 := by rw [hand]

/-- "they differ in `OP`" (30_encoding.md rule R85). -/
theorem nodup_rowOps : (opcodeRows.map fun row => hdrOp row.2).Nodup := by decide

/-- Settles O29: a row's fixed fields are what the decoder checks, and the rows differ in `OP`. -/
theorem decodesExactlyTheOpcodeTable : Obligations.DecodesExactlyTheOpcodeTable := by
  refine ⟨fun h pay => ⟨fun ⟨_, hd⟩ => legalHeader_of_decode hd, decode_of_legalHeader pay⟩, ?_⟩
  intro h m n hm hn hmatchm hmatchn
  have hops : hdrOp opcodeRows[m].2 = hdrOp opcodeRows[n].2 := by
    rw [← hdrOp_of_matchesRow (List.getElem_mem hm) hmatchm, hdrOp_of_matchesRow (List.getElem_mem hn) hmatchn]
  refine (nodup_rowOps.getElem_inj_iff (hi := by simpa) (hj := by simpa)).mp ?_
  simpa using hops

/-- Settles O30: each header by evaluation; the key loads by their row, for any payload. -/
theorem workedEncodingsDecode : Obligations.WorkedEncodingsDecode := by
  refine ⟨by decide, by decide, by decide, fun pay => ?_, fun pay => ?_, by decide, by decide, by decide⟩
  · exact (DecodesTo.ldkey (by decide) (by decide)).decode_eq
  · exact (DecodesTo.ldkeyhex (by decide) (by decide)).decode_eq

/-- Settles O31: each line is its command's encoding by definition, and an encoding decodes to its command (O27). -/
theorem assembledLinesDecode : Obligations.AssembledLinesDecode := by
  intro bytes count v origin _ line i hmem
  have henc : encode i = assemble line := by
    simp only [List.mem_cons, List.not_mem_nil, or_false, Prod.mk.injEq] at hmem
    rcases hmem with ⟨rfl, rfl⟩ | ⟨rfl, rfl⟩ | ⟨rfl, rfl⟩ | ⟨rfl, rfl⟩ | ⟨rfl, rfl⟩ | ⟨rfl, rfl⟩ | ⟨rfl, rfl⟩ |
      ⟨rfl, rfl⟩ | ⟨rfl, rfl⟩ | ⟨rfl, rfl⟩ | ⟨rfl, rfl⟩ <;> rfl
  rw [← henc]
  exact ⟨(decodesTo_encode i).decode_eq, rfl⟩

/-- Settles O32: the four fields by the laws of the completion word, the codes by R89's table. -/
theorem completionWordFields : Obligations.CompletionWordFields := by
  refine ⟨fun status ope value => ?_, rfl, rfl, rfl, rfl, rfl, rfl, rfl⟩
  exact ⟨cplStatus_completionWord .., cplOpe_completionWord .., cplZero_completionWord .., cplValue_completionWord ..⟩

end Machine

end Sys2Proof
end

section
/-! PROOFS. Family 40_aes128.md: one rule for each layer of the cipher and each operation on key words, byte by byte;
the key schedule as a word for each index; the field arithmetic, the S-box and the known answers. -/

namespace Sys2Proof.Machine

/-! ## Bytes of a vector, cells of a state -/

theorem byteAt_toList {n j : Nat} (v : Vector Byte n) (h : j < n) : byteAt v.toList j = v[j] := by
  rw [byteAt_eq_getElem (by simpa using h), Vector.getElem_toList]

theorem cell_eq_getElem (s : Bytes16) {r c : Nat} (hr : r < 4) (hc : c < 4) : cell s r c = s[r + 4 * c] :=
  byteAt_toList s (by omega)

/-- A state made of its cells holds them where they are read (40_aes128.md rule R101). -/
theorem cell_ofCells (f : Nat → Nat → Byte) {r c : Nat} (hr : r < 4) (hc : c < 4) : cell (ofCells f) r c = f r c := by
  have hrow : (r + 4 * c) % 4 = r := by omega
  have hcol : (r + 4 * c) / 4 = c := by omega
  rw [cell_eq_getElem _ hr hc, getElem_ofCells, hrow, hcol]

/-- States with the same cells are the same (40_aes128.md rule R101). -/
theorem ext_cell {s t : Bytes16} (h : ∀ r c, r < 4 → c < 4 → cell s r c = cell t r c) : s = t := by
  refine Vector.ext fun i hi => ?_
  have hrow : i % 4 < 4 := by omega
  have hcol : i / 4 < 4 := by omega
  have hbyte : i % 4 + 4 * (i / 4) = i := by omega
  simpa only [cell_eq_getElem _ hrow hcol, hbyte] using h (i % 4) (i / 4) hrow hcol

/-! ## The layers of the cipher -/

theorem cell_subBytes (s : Bytes16) {r c : Nat} (hr : r < 4) (hc : c < 4) :
    cell (subBytes s) r c = sbox (cell s r c) := by
  simp [cell_eq_getElem _ hr hc, subBytes]

theorem cell_shiftRows (s : Bytes16) {r c : Nat} (hr : r < 4) (hc : c < 4) :
    cell (shiftRows s) r c = cell s r ((c + r) % 4) := cell_ofCells _ hr hc

theorem cell_addRoundKey (s k : Bytes16) {r c : Nat} (hr : r < 4) (hc : c < 4) :
    cell (addRoundKey s k) r c = cell s r c ^^^ cell k r c := by
  simp [cell_eq_getElem _ hr hc, addRoundKey]

theorem cell_mixColumns (s : Bytes16) {r c : Nat} (hr : r < 4) (hc : c < 4) :
    cell (mixColumns s) r c = gmul 2 (cell s r c) ^^^ gmul 3 (cell s ((r + 1) % 4) c) ^^^ cell s ((r + 2) % 4) c ^^^
      cell s ((r + 3) % 4) c := cell_ofCells _ hr hc

/-- Settles O37: each layer's own rule; the four lines of MixColumns are its rule with the terms in row order. -/
theorem cipherLayersByCell : Obligations.CipherLayersByCell := by
  intro s k r c hr hc
  refine ⟨cell_subBytes s hr hc, cell_shiftRows s hr hc, cell_addRoundKey s k hr hc, ?_, ?_, ?_, ?_⟩
  · exact cell_mixColumns s (by decide) hc
  all_goals
    rw [cell_mixColumns s (by decide) hc]
    simp only [Nat.reduceAdd, Nat.reduceMod]
    ac_rfl

/-! ## The operations on key words -/

theorem byteAt_rotWord (a : KeyWord) {j : Nat} (h : j < 4) :
    byteAt (rotWord a).toList j = byteAt a.toList ((j + 1) % 4) := by
  simp [byteAt_toList _ h, rotWord]

theorem byteAt_subWord (a : KeyWord) {j : Nat} (h : j < 4) :
    byteAt (subWord a).toList j = sbox (byteAt a.toList j) := by
  simp [byteAt_toList _ h, subWord]

theorem byteAt_xorWord (a b : KeyWord) {j : Nat} (h : j < 4) :
    byteAt (xorWord a b).toList j = byteAt a.toList j ^^^ byteAt b.toList j := by
  simp [byteAt_toList _ h, xorWord]

theorem byteAt_rconWord (n : Nat) {j : Nat} (h : j < 4) :
    byteAt (rconWord n).toList j = if j = 0 then rcon n else 0 := by
  simp [byteAt_toList _ h, rconWord]

/-! ## The key schedule -/

theorem wordAt_append_left {a b : List KeyWord} {i : Nat} (h : i < a.length) : wordAt (a ++ b) i = wordAt a i := by
  simp [wordAt, List.getElem?_append, h]

theorem length_keyWords (k : Bytes16) (n : Nat) : (keyWords k n).length = 4 + n := by
  induction n with
  | zero => rfl
  | succ n ih => rw [keyWords, List.length_append, ih, List.length_singleton, Nat.add_assoc]

/-- Word `i` of the schedule, whatever number of words `keyWords` computes (`wordAt_keyWords`; 40_aes128.md rule
R106). -/
def scheduleWord (k : Bytes16) (i : Nat) : KeyWord := wordAt (keyWords k (i + 1)) i

/-- Words already computed stay as they are. -/
theorem wordAt_keyWords_succ {k : Bytes16} {n i : Nat} (h : i < 4 + n) :
    wordAt (keyWords k (n + 1)) i = wordAt (keyWords k n) i :=
  wordAt_append_left (by rwa [length_keyWords])

theorem wordAt_keyWords_add {k : Bytes16} {n i : Nat} (h : i < 4 + n) (d : Nat) :
    wordAt (keyWords k (n + d)) i = wordAt (keyWords k n) i := by
  induction d with
  | zero => rfl
  | succ d ih => rw [← Nat.add_assoc, wordAt_keyWords_succ (by omega), ih]

theorem wordAt_keyWords {k : Bytes16} {n i : Nat} (h : i < 4 + n) : wordAt (keyWords k n) i = scheduleWord k i := by
  rw [scheduleWord, ← wordAt_keyWords_add h (i + 1), ← wordAt_keyWords_add (n := i + 1) (by omega) n, Nat.add_comm]

/-- The first four words are the key's (40_aes128.md rule R106). -/
theorem byteAt_scheduleWord_of_lt (k : Bytes16) {i j : Nat} (hi : i < 4) (hj : j < 4) :
    byteAt (scheduleWord k i).toList j = byteAt k.toList (4 * i + j) := by
  rw [← wordAt_keyWords (n := 0) hi]
  simp [keyWords, wordAt, hi, byteAt_toList _ hj]

/-- Each later word by the recurrence (40_aes128.md rule R106). -/
theorem scheduleWord_add_four (k : Bytes16) (n : Nat) :
    scheduleWord k (4 + n) = xorWord (scheduleWord k n)
      (if (4 + n) % 4 = 0 then
        xorWord (subWord (rotWord (scheduleWord k (3 + n)))) (rconWord ((4 + n) / 4))
      else scheduleWord k (3 + n)) := by
  have hlast : wordAt (keyWords k (n + 1)) (4 + n) = nextWord (keyWords k n) := by
    simp [keyWords, wordAt, ← length_keyWords k n]
  have hback : 4 + n - 4 = n := by omega
  have hprev : 4 + n - 1 = 3 + n := by omega
  rw [← wordAt_keyWords (n := n + 1) (by omega), hlast, nextWord, length_keyWords, hback, hprev,
    wordAt_keyWords (by omega), wordAt_keyWords (by omega)]

theorem roundKey_keyExpansion (k : Bytes16) {r : Nat} (hr : r < 11) :
    roundKey (keyExpansion k) r =
      ofCells fun j c => byteAt (wordAt (keyWords k 40) (4 * r + c)).toList j := by
  simp [roundKey, keyExpansion, hr]

/-- Column `c` of round key `r` is word `4r + c` (40_aes128.md rule R106). -/
theorem cell_roundKey (k : Bytes16) {r c j : Nat} (hr : r < 11) (hc : c < 4) (hj : j < 4) :
    cell (roundKey (keyExpansion k) r) j c = byteAt (scheduleWord k (4 * r + c)).toList j := by
  rw [roundKey_keyExpansion k hr, cell_ofCells _ hj hc, wordAt_keyWords (by omega)]

theorem cell_roundKey_zero (k : Bytes16) {c j : Nat} (hc : c < 4) (hj : j < 4) :
    cell (roundKey (keyExpansion k) 0) j c = cell k j c := by
  rw [cell_roundKey k (by decide) hc hj, Nat.mul_zero, Nat.zero_add, byteAt_scheduleWord_of_lt k hc hj, cell,
    Nat.add_comm]

/-- `rk[0] = k` (40_aes128.md rule R106). -/
theorem roundKey_zero (k : Bytes16) : roundKey (keyExpansion k) 0 = k :=
  ext_cell fun _ _ hr hc => cell_roundKey_zero k hc hr

/-- Settles O38: the words are `scheduleWord k`. -/
theorem keyExpansionRecurrence : Obligations.KeyExpansionRecurrence := by
  refine ⟨fun a b n j hj => ?_, fun k =>
    ⟨scheduleWord k, fun _ _ => byteAt_scheduleWord_of_lt k, ?_, ?_, roundKey_zero k⟩⟩
  · exact ⟨byteAt_rotWord a hj, byteAt_subWord a hj, byteAt_xorWord a b hj, byteAt_rconWord n hj⟩
  · intro i hi _
    obtain ⟨n, rfl⟩ := Nat.exists_eq_add_of_le hi
    have hback : 4 + n - 4 = n := by omega
    have hprev : 4 + n - 1 = 3 + n := by omega
    rw [hback, hprev, scheduleWord_add_four]
  · intro r c j hr hc hj
    rw [Nat.add_comm (4 * c), ← cell_roundKey k hr hc hj, cell]

/-! ## The field, and the round constants -/

/-- The bits of `b` from `i` up, added to the sum so far (40_aes128.md rule R102). -/
theorem xor_gmulFrom (a b : Byte) (n : Nat) : ∀ (i : Nat) (acc : Byte),
    acc ^^^ gmulFrom b n i (xtime^[i] a) =
      (List.range' i n).foldl (fun acc i => acc ^^^ (if b.getLsbD i then xtime^[i] a else 0)) acc := by
  induction n with
  | zero => exact fun i acc => BitVec.xor_zero
  | succ n ih =>
    intro i acc
    rw [gmulFrom, List.range'_succ, List.foldl_cons, ← ih, Function.iterate_succ_apply', BitVec.xor_assoc]

theorem gmul_eq_foldl (a b : Byte) :
    gmul a b = (List.range 8).foldl (fun acc i => acc ^^^ (if b.getLsbD i then xtime^[i] a else 0)) 0 := by
  rw [List.range_eq_range', ← xor_gmulFrom]
  exact BitVec.zero_xor.symm

theorem getLsbD_seven (b : Byte) : b.getLsbD 7 = decide (128 ≤ b.toNat) := BitVec.msb_eq_decide b

/-- `xtime` on numbers: twice the byte modulo 256, reduced where bit 7 is set (40_aes128.md rule R102). -/
theorem toNat_xtime (b : Byte) :
    (xtime b).toNat = Nat.xor (b.toNat * 2 % 256) (if 128 ≤ b.toNat then 0x1b else 0) := by
  have hshift : (b <<< 1).toNat = b.toNat * 2 % 256 := by rw [BitVec.toNat_shiftLeft, Nat.shiftLeft_eq]
  rw [xtime, BitVec.toNat_xor, hshift, getLsbD_seven]
  by_cases h : 128 ≤ b.toNat <;> simp [h]

/-- Each round constant is twice the one before it, in the field (40_aes128.md rule R107). -/
theorem rcon_succ : ∀ j < 10, 1 ≤ j → rcon (j + 1) = xtime (rcon j) := by decide

theorem rcon_eq_iterate {j : Nat} (h : 1 ≤ j) : j ≤ 10 → rcon j = xtime^[j - 1] 0x01 := by
  induction j, h using Nat.le_induction with
  | base => exact fun _ => rfl
  | succ j hj ih =>
    intro hle
    rw [rcon_succ j hle hj, ih (by omega), ← Function.iterate_succ_apply' xtime]
    congr 2
    omega

/-- Settles O35, by the recursion of the product, `xtime` on numbers, and the recurrence of the round constants. -/
theorem fieldArithmetic : Obligations.FieldArithmetic :=
  ⟨gmul_eq_foldl, toNat_xtime, fun _ => rcon_eq_iterate⟩

/-! ## The S-box -/

/-- `A(x)`: bit `i` of a rotation right by `n` is bit `i + n` mod 8 (40_aes128.md rule R103). -/
def sboxAffine (x : Byte) : Byte :=
  x ^^^ x.rotateRight 4 ^^^ x.rotateRight 5 ^^^ x.rotateRight 6 ^^^ x.rotateRight 7 ^^^ 0x63

/-- The inverse of the affine map `A`. -/
def sboxAffineInv (y : Byte) : Byte := y.rotateRight 2 ^^^ y.rotateRight 5 ^^^ y.rotateRight 7 ^^^ 0x05

theorem getLsbD_rotateRight_byte (x : Byte) {n i : Nat} (hn : n < 8) (hi : i < 8) :
    (x.rotateRight n).getLsbD i = x.getLsbD ((i + n) % 8) := by
  rw [BitVec.getLsbD_rotateRight, Nat.mod_eq_of_lt hn]
  by_cases h : i < 8 - n
  · rw [decide_eq_true h, cond_true, Nat.mod_eq_of_lt (by omega), Nat.add_comm]
  · rw [decide_eq_false h, cond_false, decide_eq_true hi, Bool.true_and]
    congr 1
    omega

theorem getLsbD_sboxAffine (x : Byte) {i : Nat} (hi : i < 8) : (sboxAffine x).getLsbD i =
    (x.getLsbD i ^^ x.getLsbD ((i + 4) % 8) ^^ x.getLsbD ((i + 5) % 8) ^^ x.getLsbD ((i + 6) % 8) ^^
      x.getLsbD ((i + 7) % 8) ^^ (0x63#8).getLsbD i) := by
  simp only [sboxAffine, BitVec.getLsbD_xor, getLsbD_rotateRight_byte x _ hi, Nat.reduceLT]
  rfl

theorem sboxAffine_sboxAffineInv : ∀ y : Byte, sboxAffine (sboxAffineInv y) = y := by decide +kernel

theorem sboxAffineInv_sbox_zero : sboxAffineInv (sbox 0) = 0 := by decide

/-- Each entry of the table is the image of its byte's inverse: undo the affine map, and the product with the byte
is 1 (40_aes128.md rule R103). -/
theorem gmul_sboxAffineInv_sbox : ∀ b : Byte, b ≠ 0 → gmul b (sboxAffineInv (sbox b)) = 1 := by decide +kernel

/-- Settles O36: the inverse is what the affine map undone leaves of the table's value, and the affine map is bit by
bit a sum of rotations. -/
theorem sboxIsAffineInverse : Obligations.SboxIsAffineInverse := by
  refine fun b => ⟨sboxAffineInv (sbox b), ?_, fun i hi => ?_⟩
  · split
    case isTrue h => rw [h, sboxAffineInv_sbox_zero]
    case isFalse h => exact gmul_sboxAffineInv_sbox b h
  · rw [← getLsbD_sboxAffine _ hi, sboxAffine_sboxAffineInv]

/-! ## The known answers -/

/-- Settles O39, by evaluation: the three values are the cipher's own test vectors. -/
theorem aesKnownAnswer : Obligations.AesKnownAnswer :=
  ⟨by decide +kernel, by decide +kernel, by decide +kernel⟩

end Sys2Proof.Machine
end

section
/-! PROOFS. Family 41_keystream_engine.md: the hex key decoder, read pair by pair; the two key loads, which share the
loading of a candidate; the counter increment as a number, and the one step that runs it. -/

namespace Sys2Proof.Machine

/-! ## Hex digits and `decodeKey` -/

theorem isHex_iff (ch : Byte) : isHex ch = true ↔
    (0x30 ≤ ch.toNat ∧ ch.toNat ≤ 0x39) ∨ (0x41 ≤ ch.toNat ∧ ch.toNat ≤ 0x46) ∨
      (0x61 ≤ ch.toNat ∧ ch.toNat ≤ 0x66) := by
  simp [isHex, or_assoc]

theorem toNat_hexValue_digit {ch : Byte} (hlo : 0x30 ≤ ch.toNat) (hhi : ch.toNat ≤ 0x39) :
    (hexValue ch).toNat = ch.toNat - 0x30 := by
  rw [hexValue, if_pos hhi]
  bv_omega

theorem toNat_hexValue_upper {ch : Byte} (hlo : 0x41 ≤ ch.toNat) (hhi : ch.toNat ≤ 0x46) :
    (hexValue ch).toNat = 10 + (ch.toNat - 0x41) := by
  rw [hexValue, if_neg (by omega), if_pos hhi]
  bv_omega

theorem toNat_hexValue_lower {ch : Byte} (hlo : 0x61 ≤ ch.toNat) (hhi : ch.toNat ≤ 0x66) :
    (hexValue ch).toNat = 10 + (ch.toNat - 0x61) := by
  rw [hexValue, if_neg (by omega), if_neg (by omega)]
  bv_omega

/-- The 22 hex digits, each with its value (41_keystream_engine.md rule R122). -/
theorem isHex_iff_hexValue (ch : Byte) : isHex ch = true ↔
    (∃ d, d < 10 ∧ ch.toNat = 0x30 + d ∧ (hexValue ch).toNat = d) ∨
    (∃ d, d < 6 ∧ ch.toNat = 0x41 + d ∧ (hexValue ch).toNat = 10 + d) ∨
    (∃ d, d < 6 ∧ ch.toNat = 0x61 + d ∧ (hexValue ch).toNat = 10 + d) := by
  rw [isHex_iff]
  constructor
  · rintro (⟨hlo, hhi⟩ | ⟨hlo, hhi⟩ | ⟨hlo, hhi⟩)
    · exact .inl ⟨ch.toNat - 0x30, by omega, by omega, toNat_hexValue_digit hlo hhi⟩
    · exact .inr (.inl ⟨ch.toNat - 0x41, by omega, by omega, toNat_hexValue_upper hlo hhi⟩)
    · exact .inr (.inr ⟨ch.toNat - 0x61, by omega, by omega, toNat_hexValue_lower hlo hhi⟩)
  · rintro (⟨d, hd, hch, -⟩ | ⟨d, hd, hch, -⟩ | ⟨d, hd, hch, -⟩) <;> omega

theorem toNat_hexValue_lt {ch : Byte} (h : isHex ch = true) : (hexValue ch).toNat < 16 := by
  rcases (isHex_iff_hexValue ch).mp h with ⟨d, hd, -, hv⟩ | ⟨d, hd, -, hv⟩ | ⟨d, hd, -, hv⟩ <;> omega

theorem length_hexPairs : ∀ s : List Byte, (hexPairs s).length = s.length / 2
  | [] => rfl
  | [_] => by simp [hexPairs]
  | _ :: _ :: rest => by
    have ih := length_hexPairs rest
    simp only [hexPairs, List.length_cons, ih]
    omega

/-- Byte `j` is read from the characters `2j` and `2j + 1` (41_keystream_engine.md rule R121). -/
theorem byteAt_hexPairs : ∀ {s : List Byte} {j : Nat}, j < s.length / 2 →
    byteAt (hexPairs s) j = 16 * hexValue (byteAt s (2 * j)) + hexValue (byteAt s (2 * j + 1))
  | [], _, h | [_], _, h => absurd h (by simp)
  | _ :: _ :: _, 0, _ => rfl
  | _ :: _ :: rest, j + 1, h => by
    have hj : j < rest.length / 2 := by simp only [List.length_cons] at h; omega
    exact byteAt_hexPairs (s := rest) (j := j) hj

/-- A pair of hex digits makes a byte without wrap, the first the high nibble (41_keystream_engine.md rule R122). -/
theorem toNat_hexPair {hi lo : Byte} (hhi : isHex hi = true) (hlo : isHex lo = true) :
    (16 * hexValue hi + hexValue lo).toNat = 16 * (hexValue hi).toNat + (hexValue lo).toNat := by
  have h₁ := toNat_hexValue_lt hhi
  have h₂ := toNat_hexValue_lt hlo
  bv_omega

theorem decodeKey_eq_some_iff {s b : List Byte} :
    decodeKey s = some b ↔ s.length % 2 = 0 ∧ (∀ ch ∈ s, isHex ch = true) ∧ hexPairs s = b := by
  unfold decodeKey
  split
  case isTrue hodd => simp [hodd]
  case isFalse heven =>
    have heven : s.length % 2 = 0 := by omega
    simp [heven]

theorem decodeKey_eq_none_iff {s : List Byte} :
    decodeKey s = none ↔ s.length % 2 = 1 ∨ ∃ ch ∈ s, isHex ch = false := by
  unfold decodeKey
  split
  case isTrue hodd => simp [hodd]
  case isFalse heven => simp [heven]

theorem length_of_decodeKey {s b : List Byte} (h : decodeKey s = some b) :
    s.length % 2 = 0 ∧ b.length = s.length / 2 := by
  obtain ⟨heven, -, rfl⟩ := decodeKey_eq_some_iff.mp h
  exact ⟨heven, length_hexPairs s⟩

theorem toNat_byteAt_of_decodeKey {s b : List Byte} (h : decodeKey s = some b) {j : Nat} (hj : j < b.length) :
    (byteAt b j).toNat = 16 * (hexValue (byteAt s (2 * j))).toNat + (hexValue (byteAt s (2 * j + 1))).toNat := by
  obtain ⟨heven, hhex, rfl⟩ := decodeKey_eq_some_iff.mp h
  rw [length_hexPairs] at hj
  have hchar : ∀ i, i < s.length → isHex (byteAt s i) = true := fun i hi => by
    rw [byteAt_eq_getElem hi]
    exact hhex _ (List.getElem_mem hi)
  rw [byteAt_hexPairs hj, toNat_hexPair (hchar _ (by omega)) (hchar _ (by omega))]

/-- Settles O3: `decodeKey` by what it answers, its bytes pair by pair, and the hex digits range by range. -/
theorem decodeKeyReadsHexPairs : Obligations.DecodeKeyReadsHexPairs :=
  ⟨fun _ => decodeKey_eq_none_iff,
    fun _ _ h => ⟨(length_of_decodeKey h).2, fun _ hj => toNat_byteAt_of_decodeKey h hj⟩,
    isHex_iff_hexValue⟩

/-! ## The key loads -/

/-- What `raise` changes: the sequencer, and the completion it transfers (60_exceptions.md rule R180). -/
theorem raise_reports (c : Status) (s : State) :
    (s.raise c).st = { s.st with fsm := .idle } ∧ Transfers s (s.raise c) [cplEvent s c 0 none] := ⟨rfl, rfl, rfl⟩

theorem loadCandidate_of_length_ne {b : List Byte} (h : b.length ≠ 16) (s : State) :
    s.loadCandidate b = s.raise .invalidKeyLength := by
  simp only [State.loadCandidate, keyOfBytes, if_neg h]

theorem loadCandidate_of_length {b : List Byte} (h : b.length = 16) (s : State) :
    s.loadCandidate b = (s.loadKey (first16 b)).complete .ok 0 none := by
  simp only [State.loadCandidate, keyOfBytes, if_pos h]

/-- What loading a candidate of 16 bytes changes: the key, `key_valid`, the sequencer, and the completion it transfers
(41_keystream_engine.md rules R123 and R124). -/
theorem loadCandidate_loads {b : List Byte} (h : b.length = 16) (s : State) :
    (s.loadCandidate b).st.key.toList = b ∧
      (s.loadCandidate b).st =
        { s.st with key := (s.loadCandidate b).st.key, keyValid := true, fsm := .idle } ∧
      Transfers s (s.loadCandidate b) [cplEvent s .ok 0 none] := by
  rw [loadCandidate_of_length h]
  exact ⟨first16_toList h, rfl, rfl, rfl⟩

section
variable {pay : List Byte} {s : State}

theorem exec_ldkey_of_keyValid (h : s.st.keyValid = true) :
    exec (.ldkey pay) s = .next (s.raise .unsupportedOperation) := by
  simp only [exec, execLdkey, if_pos h]

theorem exec_ldkey_of_not_keyValid (h : ¬ s.st.keyValid = true) :
    exec (.ldkey pay) s = .next (s.loadCandidate pay) := by
  simp only [exec, execLdkey, if_neg h]

theorem exec_ldkeyhex_of_keyValid (h : s.st.keyValid = true) :
    exec (.ldkeyhex pay) s = .next (s.raise .unsupportedOperation) := by
  simp only [exec, execLdkeyhex, if_pos h]

theorem exec_ldkeyhex_of_decodeKey_none (h : ¬ s.st.keyValid = true) (hd : decodeKey pay = none) :
    exec (.ldkeyhex pay) s = .next (s.raise .invalidKeyFormat) := by
  simp only [exec, execLdkeyhex, if_neg h, hd]

theorem exec_ldkeyhex_of_decodeKey_some {b : List Byte} (h : ¬ s.st.keyValid = true) (hd : decodeKey pay = some b) :
    exec (.ldkeyhex pay) s = .next (s.loadCandidate b) := by
  simp only [exec, execLdkeyhex, if_neg h, hd]

end

/-- Settles O1: a loaded key is refused first; otherwise the payload is the candidate. -/
theorem ldkeyLoadsKeyOrReports : Obligations.LdkeyLoadsKeyOrReports := by
  intro pay s
  refine ⟨(decodesTo_encode (.ldkey pay)).decode_eq, ?_⟩
  by_cases hk : s.st.keyValid = true
  · refine ⟨_, exec_ldkey_of_keyValid hk, ?_⟩
    rw [if_pos hk]
    exact raise_reports _ s
  refine ⟨_, exec_ldkey_of_not_keyValid hk, ?_⟩
  rw [if_neg hk]
  by_cases hlen : pay.length = 16
  · rw [if_neg (not_not_intro hlen)]
    exact loadCandidate_loads hlen s
  · rw [if_pos hlen, loadCandidate_of_length_ne hlen]
    exact raise_reports _ s

/-- Settles O2: a loaded key is refused first, then what does not decode; otherwise the decoded bytes, half as many as
the characters, are the candidate. -/
theorem ldkeyhexLoadsKeyOrReports : Obligations.LdkeyhexLoadsKeyOrReports := by
  intro pay s
  refine ⟨(decodesTo_encode (.ldkeyhex pay)).decode_eq, ?_⟩
  by_cases hk : s.st.keyValid = true
  · refine ⟨_, exec_ldkeyhex_of_keyValid hk, ?_⟩
    rw [if_pos hk]
    exact raise_reports _ s
  cases hd : decodeKey pay with
  | none =>
    refine ⟨_, exec_ldkeyhex_of_decodeKey_none hk hd, ?_⟩
    rw [if_neg hk, if_pos rfl]
    exact raise_reports _ s
  | some b =>
    obtain ⟨heven, hhalf⟩ := length_of_decodeKey hd
    refine ⟨_, exec_ldkeyhex_of_decodeKey_some hk hd, ?_⟩
    rw [if_neg hk, if_neg (Option.some_ne_none b)]
    by_cases hlen : pay.length = 32
    · obtain ⟨hkey, hframe⟩ := loadCandidate_loads (b := b) (by omega) s
      rw [if_neg (not_not_intro hlen)]
      exact ⟨congrArg some hkey.symm, hframe⟩
    · rw [if_pos hlen, loadCandidate_of_length_ne (by omega)]
      exact raise_reports _ s

/-! ## The counter -/

/-- The counter block after an increment, as a number: the quotient by `2^m` stays (41_keystream_engine.md rule R126). -/
theorem be16_inc {m : Nat} (hm : m ≤ 128) (c : Bytes16) :
    be16 (inc m c) = 2 ^ m * (be16 c / 2 ^ m) + (be16 c + 1) % 2 ^ m := by
  have hpow : 2 ^ m * 2 ^ (128 - m) = 2 ^ 128 := by rw [← Nat.pow_add, Nat.add_sub_cancel' hm]
  have hquot : be16 c / 2 ^ m < 2 ^ (128 - m) := Nat.div_lt_of_lt_mul (by rw [hpow]; exact be16_lt c)
  have hlow : (be16 c + 1) % 2 ^ m < 2 ^ m := Nat.mod_lt _ (by positivity)
  have hupper : be16 c - be16 c % 2 ^ m = 2 ^ m * (be16 c / 2 ^ m) := by
    have := Nat.div_add_mod (be16 c) (2 ^ m)
    omega
  have hfits : 2 ^ m * (be16 c / 2 ^ m) + (be16 c + 1) % 2 ^ m < 2 ^ 128 := calc
    _ < 2 ^ m * (be16 c / 2 ^ m) + 2 ^ m := Nat.add_lt_add_left hlow _
    _ = 2 ^ m * (be16 c / 2 ^ m + 1) := (Nat.mul_succ _ _).symm
    _ ≤ 2 ^ m * 2 ^ (128 - m) := Nat.mul_le_mul_left _ hquot
    _ = 2 ^ 128 := hpow
  rw [inc, be16_ofBE16, hupper, Nat.mod_eq_of_lt hfits]

/-- Settles O33: quotient and remainder of the number `be16_inc` gives. -/
theorem counterIncrement : Obligations.CounterIncrement := by
  intro m c hm
  have hpos : 0 < 2 ^ m := by positivity
  rw [be16_inc hm]
  constructor
  · rw [Nat.mul_add_div hpos, Nat.div_eq_of_lt (Nat.mod_lt _ hpos), Nat.add_zero]
  · rw [Nat.mul_add_mod, Nat.mod_mod]

theorem CommandTo.ctr_eq {s t : State} {i : Option Instr} (ht : CommandTo s i t)
    (h : s.st.init = false → s.st.ctr = ofBE16 0) : t.st.ctr = s.st.ctr := by
  cases ht with
  | read count _ hl => exact hl.ctr_eq h
  | _ => rfl

theorem ReadRespTo.ctr_eq {s t : State} {r : ReadResp} (ht : ReadRespTo s r t) : t.st.ctr = s.st.ctr := by
  cases ht <;> rfl

/-- Settles O15: KSBLOCK is the step of DECRYPTING; of the other steps only INIT writes the counter, with the value it
has before INIT. -/
theorem counterAdvancesOncePerBlock : Obligations.CounterAdvancesOncePerBlock := by
  refine ⟨fun s hfree hf => ?_, fun s t hi hrst hf h => ?_⟩
  · have hstep : step s = .next (s.ksBlock.goto .appending) := by rw [hfree.step_eq, blockStep_decrypting hf]
    exact ⟨_, hstep, ⟨by simp, rfl⟩, rfl⟩
  · cases step_stepTo h with
    | reset hr => simp [hrst] at hr
    | command _ _ _ _ _ _ ht => exact ht.ctr_eq hi.initCtr
    | response _ _ _ _ _ _ _ ht => exact ht.ctr_eq
    | keystream _ hf' => exact absurd hf' hf
    | append _ _ ht => exact ht.ctr_eq hi.initCtr
    | _ => rfl

end Sys2Proof.Machine
end

section
/-! PROOFS. Family 42_reader.md: what LOOP_TEST transfers, for an accepted READ and for an appended block; a response
taken in `FILLING`; and the output as a function of the ciphertext decrypted, by which two runs compare. -/

namespace Sys2Proof.Machine

/-! ## The output as a function of the ciphertext -/

/-- A run of the system keeps its invariant (O43, move by move). -/
theorem SystemInv.moves {ms : List Move} {s t : State} (hs : SystemInv s) (h : moves ms s = .next t) : SystemInv t := by
  induction ms generalizing s with
  | nil => cases h; exact hs
  | cons m ms ih =>
    rw [Machine.moves] at h
    split at h
    · exact ih (movesKeepSystemInv m s _ hs ‹_›) h
    · cases h
    · cases h

/-- The plaintext of the ciphertext `c` under the key, from stream position 0 (20_memory.md rule R60). -/
def decipher (key : Bytes16) (m : Nat) (c : List Byte) : List Byte :=
  c.mapIdx fun d x => x ^^^ keystreamByte (keyExpansion key) m d

@[simp] theorem length_decipher (key : Bytes16) (m : Nat) (c : List Byte) : (decipher key m c).length = c.length :=
  List.length_mapIdx

theorem decipher_isPrefix {c d : List Byte} (key : Bytes16) (m : Nat) (h : c <+: d) :
    decipher key m c <+: decipher key m d := by
  obtain ⟨e, rfl⟩ := h
  exact ⟨_, List.mapIdx_append.symm⟩

/-- The output is the plaintext of the bytes decrypted, under the block's key: nothing is emitted before INIT
(10_state.md rule R23), and INIT expands that key (41_keystream_engine.md rule R125). -/
theorem SystemInv.emitted_eq {s : State} (hs : SystemInv s) :
    emitted s.io.trace = decipher s.st.key s.ctrIncBits.val (stream s.io.trace).dec := by
  have hlen := hs.streams.lengths
  rw [← stream_out_eq_emitted]
  refine List.ext_getElem (by simp [hlen]) fun d hd hd' => ?_
  have hinit : s.st.init = true := by
    by_contra hi
    simp [hs.streams.quiet (by simpa using hi)] at hd
  have hbyte := hs.streams.bytes d hd
  rw [byteAt_eq_getElem hd, byteAt_eq_getElem (hlen ▸ hd), (hs.block.initKey hinit).2] at hbyte
  simp only [decipher, List.getElem_mapIdx, hbyte]

/-- Where no upstream read has failed, the bytes decrypted are the beginning of the bytes delivered (42_reader.md rule
R153). -/
theorem dec_isPrefix_delivered {tr : List Event} (h : noReadError tr = true) : (stream tr).dec <+: delivered tr :=
  ⟨_, stream_dec_append_fill h⟩

/-- Between commands the fill is empty, and every byte delivered has been emitted (10_state.md rule R38). -/
theorem SystemInv.length_emitted {s : State} (hs : SystemInv s) (h : noReadError s.io.trace = true)
    (hidle : s.st.fsm = .idle) : (emitted s.io.trace).length = (delivered s.io.trace).length := by
  have hfill : (stream s.io.trace).fill = [] := by
    rw [hs.streams.fill, hs.block.idleEmpty (.inl hidle), List.take_zero]
  rw [hs.emitted_eq, length_decipher, ← stream_dec_append_fill h, hfill, List.append_nil]

/-- Settles O47: both runs have decrypted a beginning of the longer delivery, and the output is a function of the
ciphertext decrypted, the key and the width. -/
theorem chunkingDoesNotAffectOutput : Obligations.ChunkingDoesNotAffectOutput := by
  intro ms₁ ms₂ s₁ s₂ t₁ t₂ hs₁ hs₂ hm₁ hm₂ hkey hwidth hok₁ hok₂ hdelivered
  have ht₁ := hs₁.moves hm₁
  have ht₂ := hs₂.moves hm₂
  refine ⟨?_, ht₁.length_emitted hok₁, ht₂.length_emitted hok₂⟩
  rw [ht₁.emitted_eq, ht₂.emitted_eq, hkey, hwidth]
  have hdec₁ := (dec_isPrefix_delivered hok₁).trans hdelivered
  exact (List.prefix_or_prefix_of_prefix hdec₁ (dec_isPrefix_delivered hok₂)).imp
    (decipher_isPrefix _ _) (decipher_isPrefix _ _)

/-! ## LOOP_TEST: an accepted READ and an appended block -/

/-- LOOP_TEST transfers its completion, or nothing (42_reader.md rules R142 and R143). -/
theorem LoopTo.transfers {s t : State} (hl : LoopTo s t) : Transfers s t (loopEvents s.st) :=
  ⟨hl.io_eq, hl.ctrIncBits_eq⟩

theorem exec_read_of_keyValid {count : BitVec 48} {s : State} (h : s.st.keyValid = true) :
    exec (.read count) s = .next (s.startRead count).loopTest := by
  simp only [exec, execRead, if_pos h]

theorem exec_read_of_not_keyValid {count : BitVec 48} {s : State} (h : s.st.keyValid = false) :
    exec (.read count) s = .next (s.raise .noKey) := by
  simp [exec, execRead, h]

/-- Settles O4: without a key `raise`; a count of 0 is reached at once; otherwise LOOP_TEST enters the loop. -/
theorem readAcceptFollowsLoopTest : Obligations.ReadAcceptFollowsLoopTest := by
  intro count s
  cases hk : s.st.keyValid with
  | false => exact ⟨_, exec_read_of_not_keyValid hk, by rw [if_pos rfl]; exact raise_reports .noKey s⟩
  | true =>
    refine ⟨_, exec_read_of_keyValid hk, ?_⟩
    rw [if_neg (by decide)]
    by_cases hc : count = 0
    · subst hc
      rw [if_pos rfl, loopTest_startRead_zero s (by decide)]
      exact ⟨rfl, rfl, rfl⟩
    · have hl := (s.startRead count).loopTest_loopTo
      have hpos : ¬ count.toNat ≤ 0 := fun h => hc (BitVec.eq_of_toNat_eq (Nat.le_zero.mp h))
      rw [if_neg hc]
      refine ⟨?_, ?_⟩
      · rw [hl.st_eq, State.ensureInit_st]
        exact if_neg hpos
      · simpa [Transfers, loopEvents, hpos, cplEvent] using hl.transfers

/-- Settles O18: the loop is entered with `eof` set, and INIT leaves the counter where it stands before INIT. -/
theorem exhaustedReadReturnsZero : Obligations.ExhaustedReadReturnsZero := by
  intro count s hi hk he hc
  obtain ⟨t, ht, hframe⟩ := readAcceptFollowsLoopTest count s
  have hne : count ≠ 0 := fun h => by simp [h] at hc
  rw [if_neg (by simp [hk]), if_neg hne, if_pos he, if_pos he] at hframe
  obtain ⟨hst, htransfers⟩ := hframe
  refine ⟨t, ht, htransfers, ?_, by rw [hst]; exact he, by rw [hst]⟩
  cases hinit : s.st.init <;> simp [hst, hinit, hi.initCtr]

theorem State.clearFill_of_empty {s : State} (h : s.st.fcnt = 0) : s.clearFill = s := by
  rw [State.clearFill, ← h]

/-- LOOP_TEST with an initialised cipher and an empty fill completes where the count is reached or the stream has ended
(42_reader.md rules R142 and R143). -/
theorem LoopTo.eq_complete {s t : State} (hl : LoopTo s t) (hinit : s.st.init = true) (hn : s.st.fcnt = 0)
    (hend : s.st.count.toNat ≤ s.st.produced.toNat ∨ s.st.eof = true) : t = s.complete .ok s.st.produced none := by
  cases hl with
  | done _ => rfl
  | ended _ _ => rw [State.ensureInit_of_init hinit, State.clearFill_of_empty hn]
  | fetch h he => exact absurd hend (not_or.mpr ⟨Nat.not_le.mpr h, by simp [he]⟩)

/-- Otherwise it starts the next fetch (42_reader.md rule R143). -/
theorem LoopTo.eq_goto_filling {s t : State} (hl : LoopTo s t) (hinit : s.st.init = true) (hn : s.st.fcnt = 0)
    (hmore : ¬ (s.st.count.toNat ≤ s.st.produced.toNat ∨ s.st.eof = true)) : t = s.goto .filling := by
  cases hl with
  | done h => exact absurd (.inl h) hmore
  | ended _ he => exact absurd (.inr he) hmore
  | fetch _ _ => rw [State.ensureInit_of_init hinit, State.clearFill_of_empty hn]

/-- Settles O16: the block is emitted, and LOOP_TEST goes on with an initialised cipher and an empty fill. -/
theorem appendingEmitsPlaintext : Obligations.AppendingEmitsPlaintext := by
  intro s hi hfree hf
  have hfit := hi.fillBound
  obtain ⟨-, hinit, -⟩ := hi.reading (.inr (.inr hf))
  have hprod := hi.produced_emitBlock hf
  have hl := s.emitBlock.loopTest_loopTo
  refine ⟨length_plainBytes hfit, fun j hj => byteAt_plainBytes hj hfit, _, step_appending hf hfree,
    by rw [hl.produced_eq, hprod], ?_⟩
  rw [← hprod]
  split
  · rename_i hend
    rw [hl.eq_complete hinit rfl hend]
    exact ⟨rfl, by simp [Transfers, cplEvent]⟩
  · rename_i hmore
    rw [hl.eq_goto_filling hinit rfl hmore]
    exact ⟨rfl, rfl, rfl⟩

/-! ## A response taken in `FILLING` -/

theorem byteAt_writeFill_before {buf : Bytes16} {n j : Nat} {b : List Byte} (hj : j < n) (hn : n ≤ 16) :
    byteAt (writeFill buf n b).toList j = byteAt buf.toList j := by
  have h16 : j < 16 := by omega
  rw [byteAt_toList _ h16, byteAt_toList _ h16]
  simp [writeFill, Nat.not_le.mpr hj]

theorem byteAt_writeFill_at {buf : Bytes16} {n j : Nat} {b : List Byte} (hj : j < b.length)
    (hn : n + b.length ≤ 16) : byteAt (writeFill buf n b).toList (n + j) = byteAt b j := by
  rw [byteAt_toList _ (by omega)]
  simp [writeFill, hj]

/-- A free machine that fills takes a response within the contract (42_reader.md rules R145 to R147). -/
theorem step_response {s : State} {r : ReadResp} {rest : List ReadResp} (hfree : Free s) (hf : s.st.fsm = .filling)
    (hq : 0 < s.st.req) (hs : s.io.srd = r :: rest) (hc : readContract s.st.req r = true) :
    ∃ t, step s = .next t ∧ ReadRespTo s r t :=
  ⟨_, by rw [hfree.step_eq, blockStep_response hf hq.ne' hs hc], State.onReadResp_readRespTo r s⟩

/-- What a `DATA` response leaves (42_reader.md rule R145). -/
theorem ReadRespTo.data_appends {s t : State} {b : List Byte} (ht : ReadRespTo s (.data b) t)
    (hf : s.st.fsm = .filling) :
    t.st = { s.st with
        fbuf := writeFill s.st.fbuf s.st.fcnt b
        fcnt := s.st.fcnt + b.length
        req := 0
        fsm := if s.st.fcnt + b.length = 16 then .decrypting else .filling } ∧
      t.io = { s.io with srd := s.io.srd.tail, trace := s.io.trace ++ [.readResp (.data b)] } ∧
      t.ctrIncBits = s.ctrIncBits := by
  cases ht with
  | full h => exact ⟨by simp [h], by simp, by simp⟩
  | short h => exact ⟨by simp [h, hf], by simp, by simp⟩
  | ended hr _ => simp at hr
  | partialBlock hr _ => simp at hr

/-- Settles O11: the request of R144 is the step. -/
theorem fillIssuesRemainder : Obligations.FillIssuesRemainder := by
  intro s hfree hf hq
  exact ⟨s.issueRead, by rw [hfree.step_eq, blockStep_issue hf hq], rfl, rfl, rfl⟩

/-- Settles O12: the response is written behind the bytes held, which it leaves. -/
theorem dataResponseAppendsToFill : Obligations.DataResponseAppendsToFill := by
  intro s b rest hfree hf hs hpos hlen hfit
  have hc : readContract s.st.req (.data b) = true := by simp [readContract, hpos, hlen]
  obtain ⟨t, hstep, ht⟩ := step_response hfree hf (by omega) hs hc
  obtain ⟨hst, hio, hwidth⟩ := ht.data_appends hf
  have hbuf : t.st.fbuf = writeFill s.st.fbuf s.st.fcnt b := by rw [hst]
  refine ⟨t, hstep, by rw [hbuf]; exact hst, fun j hj => ?_, fun j hj => ?_, by rw [hio, hs]; rfl, hwidth⟩
  · rw [hbuf, byteAt_writeFill_before hj (by omega)]
  · rw [hbuf, byteAt_writeFill_at hj (by omega)]

/-- Settles O13: the response to an error empties the fill and completes. -/
theorem readErrorDiscardsFill : Obligations.ReadErrorDiscardsFill := by
  intro s e rest hfree hf hq hs
  obtain ⟨t, hstep, ht⟩ := step_response hfree hf hq hs rfl
  refine ⟨t, hstep, ?_⟩
  cases ht with
  | ended hr _ => simp at hr
  | partialBlock hr _ => simp at hr
  | error => exact ⟨rfl, by simp [hs, cplEvent], rfl⟩

/-- Settles O14: both responses end the stream, by the number of bytes held. -/
theorem endResponseLatchesEof : Obligations.EndResponseLatchesEof := by
  intro s r rest hfree hf hq hs hr
  have hc : readContract s.st.req r = true := by rcases hr with rfl | rfl <;> rfl
  obtain ⟨t, hstep, ht⟩ := step_response hfree hf hq hs hc
  refine ⟨t, hstep, ?_⟩
  cases ht with
  | full _ => simp at hr
  | short _ => simp at hr
  | ended _ h => exact ⟨by simp [h], by simp [h, hs, cplEvent], rfl⟩
  | partialBlock _ h => exact ⟨by simp [h], by simp [h, hs], rfl⟩
  | error => simp at hr

end Sys2Proof.Machine
end

section
/-! PROOFS. Family 43_control_commands.md: a pass-through command is its `PASS`, the source's answer completes it, and a
rejected command raises `UNSUPPORTED_OPERATION`. -/

namespace Sys2Proof.Machine

/-! ## The pass-through commands -/

/-- A pass-through command is the `PASS` of its request (43_control_commands.md rules R161 to R165). -/
theorem exec_of_passRequest {i : Instr} {op : CtlOp} {arg : Word64} (h : passRequest i = some (op, arg)) (s : State) :
    exec i s = .next (s.pass op arg) := by
  cases i with
  | close | length | posget | flush | setlen value => cases h; rfl
  | ldkey | ldkeyhex | read | write | seek | posset => cases h

/-- Settles O5: each of the five commands is the `PASS` of its request, which moves the sequencer and sends it. -/
theorem passThroughSendsItsRequest : Obligations.PassThroughSendsItsRequest := by
  intro i op arg s h
  exact ⟨s.pass op arg, exec_of_passRequest h s, State.pass_st op arg s, State.pass_io op arg s,
    State.pass_ctrIncBits op arg s⟩

/-- In `CTL_WAIT` the block takes the source's answer (43_control_commands.md rule R160). -/
theorem blockStep_ctlWait_answer {s : State} {r : CtlResp} {rest : List CtlResp} (hf : s.st.fsm = .ctlWait)
    (hs : s.io.sctl = r :: rest) : blockStep s = .next (s.onCtlResp r) := by
  simp only [blockStep, hf, ctlWaitStep, hs]

/-- Settles O6: the answer is taken from SCTL, then its value or its error is the completion's. -/
theorem passThroughAnswerCompletes : Obligations.PassThroughAnswerCompletes := by
  intro s r rest hfree hf hs
  refine ⟨s.onCtlResp r, by rw [hfree.step_eq, blockStep_ctlWait_answer hf hs], ?_⟩
  cases r with
  | ok v => exact ⟨rfl, rfl, by simp [State.onCtlResp, hs, cplEvent]⟩
  | error e => exact ⟨rfl, rfl, by simp [State.onCtlResp, hs, cplEvent]⟩

/-! ## The rejected commands -/

/-- WRITE, SEEK and POSSET raise, their fields unread (43_control_commands.md rules R166 to R168). -/
theorem exec_rejected {x : BitVec 8} {rsv : BitVec 32} {arg : BitVec 64} {pay : List Byte} {i : Instr}
    (h : i ∈ [Instr.write x rsv arg pay, .seek x rsv arg pay, .posset x rsv arg pay]) (s : State) :
    exec i s = .next (s.raise .unsupportedOperation) := by
  simp only [List.mem_cons, List.not_mem_nil, or_false] at h
  rcases h with rfl | rfl | rfl <;> rfl

/-- Settles O7: each of the three commands raises, which moves the sequencer and completes. -/
theorem rejectedOperationsAlwaysUnsupported : Obligations.RejectedOperationsAlwaysUnsupported := by
  intro x rsv arg pay s i h
  exact ⟨s.raise .unsupportedOperation, exec_rejected h s, raise_reports .unsupportedOperation s⟩

end Sys2Proof.Machine
end

section
/-! PROOFS. Family 60_exceptions.md: reset in place of any other step, and what it leaves of the host's offers. -/

namespace Sys2Proof.Machine

/-! ## The payload of the front header -/

/-- The front header lacks part of its payload where fewer than its `PLEN` bytes are offered (30_encoding.md rule R81). -/
theorem payloadMissing_of_cmd_cons {io : Ports} {h : Header} {rest : List Header} (hc : io.cmd = h :: rest) :
    payloadMissing io = true ↔ io.pay.length < (hdrPlen h).toNat := by
  simp [payloadMissing, hc]

theorem payloadMissing_of_cmd_nil {io : Ports} (hc : io.cmd = []) : ¬ payloadMissing io = true := by
  simp [payloadMissing, hc]

/-! ## What reset leaves of CMD and PAY -/

/-- In `IDLE` a header with part of its payload is dropped with the bytes sent (70_reset_and_hazards.md rule R202). -/
theorem assertReset_drops_partial {s : State} (hf : s.st.fsm = .idle) (hm : payloadMissing s.io = true) :
    s.assertReset.io.cmd = s.io.cmd.tail ∧ s.assertReset.io.pay = [] :=
  ⟨if_pos ⟨hf, hm⟩, if_pos ⟨hf, hm⟩⟩

/-- Every other offer stays. -/
theorem assertReset_keeps_offers {s : State} (h : ¬ (s.st.fsm = .idle ∧ payloadMissing s.io = true)) :
    s.assertReset.io.cmd = s.io.cmd ∧ s.assertReset.io.pay = s.io.pay :=
  ⟨if_neg h, if_neg h⟩

/-- Outside `IDLE`, with no header offered, or with the front header's payload complete, no payload is partly received. -/
theorem no_partial_payload {s : State}
    (h : s.st.fsm ≠ .idle ∨ s.io.cmd = [] ∨
      ∃ hd rest, s.io.cmd = hd :: rest ∧ (hdrPlen hd).toNat ≤ s.io.pay.length) :
    ¬ (s.st.fsm = .idle ∧ payloadMissing s.io = true) := by
  rintro ⟨hf, hm⟩
  rcases h with hbusy | hnone | ⟨hd, rest, hc, hcomplete⟩
  · exact hbusy hf
  · exact payloadMissing_of_cmd_nil hnone hm
  · exact absurd ((payloadMissing_of_cmd_cons hc).mp hm) (by omega)

/-! ## The record after reset -/

/-- The counter's reset value (70_reset_and_hazards.md rule R200). -/
theorem be16_reset_ctr : be16 BlockState.reset.ctr = 0 := by decide

/-- Settles O25: reset is the step; it writes the record's reset values and drops only a payload partly received. -/
theorem resetHasPriority : Obligations.ResetHasPriority := by
  intro s hr
  refine ⟨s.assertReset, step_of_rst hr, rfl, rfl, rfl, be16_reset_ctr, rfl, rfl, rfl, rfl, rfl,
    State.assertReset_rst s, State.assertReset_stalled s, State.assertReset_srd s, State.assertReset_sctl s,
    State.assertReset_trace s, State.assertReset_ctrIncBits s, ?dropped, ?kept⟩
  case dropped =>
    intro h rest hc hf hshort
    obtain ⟨hcmd, hpay⟩ := assertReset_drops_partial hf ((payloadMissing_of_cmd_cons hc).mpr hshort)
    exact ⟨by rw [hcmd, hc, List.tail_cons], hpay⟩
  case kept => exact fun h => assertReset_keeps_offers (no_partial_payload h)

end Sys2Proof.Machine
end

section
/-! PROOFS. Family 70_reset_and_hazards.md: the state after reset, from which every run starts. It is what asserting
reset leaves of it, but for the reset event in the record, and every observer of a record starts as that event puts it. -/

namespace Sys2Proof.Machine

/-- Settles O26: each field has the value of rule R200; the counter's 16 zero bytes are the number 0. -/
theorem resetStateIsSpecified : Obligations.ResetStateIsSpecified :=
  ⟨rfl, rfl, rfl, be16_reset_ctr, rfl, rfl, rfl, rfl, rfl⟩

/-- The record of the block is that of an asserted reset, and the block's invariant does not look at the ports. -/
theorem reset_blockInv : BlockInv State.reset :=
  { assertReset_blockInv State.reset with }

/-- The empty record and the record of one reset have the same, empty, streams (70_reset_and_hazards.md rule R201). -/
theorem reset_streamInv : StreamInv State.reset :=
  have hout : (stream State.reset.io.trace).out = (stream State.reset.assertReset.io.trace).out := rfl
  have hdec : (stream State.reset.io.trace).dec = (stream State.reset.assertReset.io.trace).dec := rfl
  have hfsm : State.reset.st.fsm ≠ .appending := by decide
  (assertReset_streamInv State.reset).of_stream_eq hout hdec (hfill := rfl) (hm := rfl) (hctr := rfl)
    (hinit := fun h => ⟨h, rfl⟩) (hsf := hfsm) (htf := hfsm) (halign := id)

/-- The observer of an empty record waits for a command, as the block does in `IDLE` (20_memory.md rule R71). -/
theorem reset_protocolInv : ProtocolInv State.reset where
  kept := rfl
  readOp := (assertReset_protocolInv State.reset rfl).readOp

/-- Settles O44: the record has its reset values, nothing has been transferred and nothing waits on SRD or SCTL. -/
theorem resetHasSystemInv : Obligations.ResetHasSystemInv where
  block := reset_blockInv
  streams := reset_streamInv
  protocol := reset_protocolInv
  value := valueInv_of_idle rfl rfl
  source := sourceInv_of_empty rfl rfl

end Sys2Proof.Machine
end
